-- ==== Sys2Proof/Word.lean ====
section
/-! DEFINITION. The widths SMDC works with: a byte of storage or of a frame, and a command word. -/

namespace Sys2Proof

/-- One byte of `storage` or of a wire frame; bit 0 is the least significant bit (R8). -/
abbrev Byte := BitVec 8

/-- One command word `CMD[79:0]` (R50). -/
abbrev CmdWord := BitVec 80

end Sys2Proof
end

