-- ==== Sys2Proof/Config.lean ====
section
/-! DEFINITION. What one SMDC is built with: the parameters of 00_scope.md rule R5, which no command changes. -/

namespace Sys2Proof

/-- The implementation parameters of R5. `ROW_BYTES`, `N`, `width` and `height` are derived from these
(Machine/Ops.lean, Machine/Operands.lean). They are held in `State.params`, so that a statement about
every state is one about every display size and every choice of the wire constants (log entry 1). -/
structure Params where
  /-- `RAW_W`, physical pixels per scan line. -/
  rawW : Nat
  /-- `RAW_H`, physical scan lines. -/
  rawH : Nat
  /-- `WRITE_COMMAND`, OR-ed into the control byte of a refresh frame. -/
  writeCommand : Byte
  /-- `CLEAR_COMMAND`, OR-ed into the control byte of a clear frame. -/
  clearCommand : Byte
  /-- `VCOM_MASK`, the byte form of a set bias flag. -/
  vcomMask : Byte
  /-- `VCOM_RESET`, the bias flag after reset. -/
  vcomReset : Bool
  /-- `OOB_READ`, what GETPIX answers out of bounds. -/
  oobRead : Bool
deriving DecidableEq, Repr

/-- Exactly one bit of the byte is set. -/
def oneHot (m : Byte) : Bool :=
  (List.range 8).any fun i => m == 1#8 <<< i

/-- The constraints of R5 (and R7): a model refuses parameters outside them. -/
def Params.wf (p : Params) : Bool :=
  decide (1 ≤ p.rawW) && decide (p.rawW ≤ 32767) &&
  decide (1 ≤ p.rawH) && decide (p.rawH ≤ 255) &&
  p.writeCommand != 0#8 && p.writeCommand &&& p.vcomMask == 0#8 &&
  p.clearCommand != 0#8 && p.clearCommand &&& p.vcomMask == 0#8 &&
  p.clearCommand != p.writeCommand && oneHot p.vcomMask

/-- A display of `w` by `h` pixels with the default constants of R5, which the spec itself takes from
general knowledge (G1, G2, G6). PRESUMED, unsafe: log entry 2. -/
def Params.sized (w h : Nat) : Params where
  rawW := w
  rawH := h
  writeCommand := 0x01#8
  clearCommand := 0x04#8
  vcomMask := 0x02#8
  vcomReset := true
  oobRead := false

/-- The display `State.reset` is given: the 16 by 8 pixels of the spec's examples. DESIGN CHOICE, unsafe
(R5 fixes no size): log entry 1. -/
def Params.default : Params := Params.sized 16 8

end Sys2Proof
end

