-- ==== Sys2Proof/Syntax.lean ====
section
/-! DEFINITION. The twelve commands of 30_encoding.md rule R52, with the operands each reads, and the
pseudo-instructions of R65 that expand to one of them. -/

namespace Sys2Proof

/-- The code operand, 0 to 7 in this order, under the names of R64. -/
inductive Code where
  | black | white | gray50 | dark | light | fine | diag | diagr
deriving DecidableEq, Repr

/-- The Rotation State's four values 0 to 3 (R14), also the operand of SETROT (R90). -/
inductive Rotation where
  | rot0 | rot1 | rot2 | rot3
deriving DecidableEq, Repr

/-- The commands of R52. Coordinates and lengths are the integers of R51. RESTORE's payload comes from
the data-in port (R58), not from the word. -/
inductive Instr where
  | setpix (x y : Int) (code : Code)
  | getpix (x y : Int)
  | clear
  | snapshot
  | restore
  | setrot (r : Rotation)
  | fillrect (x y w h : Int) (code : Code)
  | hline (x y w : Int) (code : Code)
  | rawhline (x y w : Int) (code : Code)
  | rawvline (x y h : Int) (code : Code)
  | refresh
  | cleartx
deriving DecidableEq, Repr

/-- The pseudo-instruction `DRAWPIXEL x, y, code` (R65). -/
def Instr.drawpixel (x y : Int) (code : Code) : Instr := .setpix x y code

/-- The pseudo-instruction `VLINE x, y, h, code` (R65). -/
def Instr.vline (x y h : Int) (code : Code) : Instr := .fillrect x y 1 h code

end Sys2Proof
end

