-- ==== Sys2Proof/Machine/State.lean ====
section
/-! DEFINITION. Everything the spec gives the machine: the three architectural items of R10, the progress
state of R22, the ports of R17 to R20, the parameters of R5, and the state after reset (R23). -/

namespace Sys2Proof.Machine

/-- `storage` as cells in one canonical form: addresses strictly rising, no cell equal to what an unlisted
address reads as (`Memory.wf`, Machine/Ops.lean). -/
abbrev Memory := List Host.Cell

/-- What a byte of storage that nothing has written reads as. The spec leaves it unspecified (R23):
`State.resetWith` takes the contents as an argument, and only the bytes it does not give read so.
DESIGN CHOICE, unsafe: log entry 4. -/
def Memory.unlisted : Byte := 0x00#8

/-- The transport events of R150. -/
inductive TxEvent where
  /-- `TXBEGIN`: take exclusive use of the bus. -/
  | txBegin
  /-- `CS(level)`: drive the select line, HIGH when `level` is true (R151). -/
  | cs (level : Bool)
  /-- `BYTE(b)`: send the 8-bit value, least significant bit first on the wire. -/
  | byte (b : Byte)
  /-- `TXEND`: release the bus. -/
  | txEnd
deriving DecidableEq, Repr

/-- One operation of a frame in the pseudocode of R152 and R153. -/
inductive TxOp where
  /-- `emit(e)`: waits until the Transport accepts the event. -/
  | emit (e : TxEvent)
  /-- `vcom <- vcom ^ 1`. -/
  | toggle
deriving DecidableEq, Repr

/-- The responses of R19. -/
inductive Response where
  | done
  | pixel (b : Bool)
  | data (bytes : List Byte)
  | illegal
deriving DecidableEq, Repr

/-- How many more transfers the other side of a valid/ready port accepts: every one, or that many and then
none (R20, R157). DESIGN CHOICE, unsafe for runs from `State.reset` alone: log entry 9. -/
inductive Readiness where
  | always
  | upTo (n : Nat)
deriving DecidableEq, Repr

/-- The sequencer of R22. A command that no port holds up completes in the step that accepts it, so the
progress kept here is that of a command waiting for a port (R88, R89, R157). -/
inductive Sequencer where
  /-- No command in progress. -/
  | idle
  /-- RESTORE waits for data-in; `next` is its byte counter. -/
  | restoring (next : Nat)
  /-- SNAPSHOT waits for data-out; `next` is its byte counter. -/
  | streaming (next : Nat)
  /-- REFRESH or CLEARTX waits for the Transport; `rest` is what remains of its frame. -/
  | transmitting (rest : List TxOp)
deriving DecidableEq, Repr

/-- What the host presents to SMDC between commands (R17, R190, R204). -/
inductive HostInput where
  /-- A word on the command port. -/
  | command (w : CmdWord)
  /-- The reset input; `contents` are the bytes the storage then holds, which the spec leaves
  unspecified (R23). -/
  | reset (contents : List Byte)
deriving DecidableEq, Repr

/-- The state of one SMDC with its ports. -/
structure State where
  /-- The parameters of R5, never written. -/
  params : Params
  /-- The framebuffer (R10, R11, R30). -/
  storage : Memory
  /-- The Rotation State (R14). -/
  rot : Rotation
  /-- The Bias/VCOM Flag (R15). -/
  vcom : Bool
  /-- Progress of the command in progress (R22). -/
  seq : Sequencer
  /-- The select line is HIGH (R22, R151). -/
  selectHigh : Bool
  /-- A bus transaction is open (R22, R158). -/
  busOpen : Bool
  /-- What the host still presents, in order (R13, R17). -/
  inputs : List HostInput
  /-- The bytes offered on the data-in port, in order (R18). -/
  dataIn : List Byte
  /-- The bytes taken from the data-out port so far (R19). -/
  dataOut : List Byte
  /-- The responses given so far (R19, R203). -/
  responses : List Response
  /-- The transport events accepted so far (R20, R150, R203). -/
  events : List TxEvent
  /-- How many more events the Transport accepts (R20, R157). -/
  transport : Readiness
  /-- How many more data-out bytes the host takes (R19, R88). -/
  dataOutReady : Readiness
deriving DecidableEq, Repr

/-- Why the machine stops with a fault. -/
inductive Fault where
  /-- Raised by every read and write of storage (`State.fetch`, `State.store`) at an index that does not
  exist, N or above (R30). R47 says none occurs: safe, log entry 12. -/
  | outsideStorage (index : Nat)
deriving DecidableEq, Repr

/-- Why the machine has no move. -/
inductive Refusal where
  /-- Raised by an arm of `exec` without a meaning (no arm is left so). Safe. -/
  | notModelled (mnemonic : String)
  /-- Raised by every meaning (`State.whenIdle`) when a command is handed to a busy SMDC, which the port
  cannot do (R45, R178, U1). `step` never does it. Safe: log entry 11. -/
  | commandWhileBusy
  /-- Raised by `step` when the host asserts reset and the command in progress cannot complete (R193, U6).
  Safe: log entry 14. -/
  | resetWhileBusy
  /-- Raised by `step` on parameters outside R5, which a model refuses (R7, U10). Safe: log entry 3. -/
  | parametersOutOfRange
deriving DecidableEq, Repr

/-- What a meaning or a step answers. -/
abbrev Answer := Host.Outcome State Fault Refusal

/-- The state after reset (R23, R190) of an SMDC with these parameters whose storage holds `m`: rotation 0,
bias flag `VCOM_RESET`, sequencer idle, select low, no transaction, nothing pending on any port. The two
readiness fields and the empty host side are the model's: log entries 6 and 9. -/
def State.powerOn (p : Params) (m : Memory) : State where
  params := p
  storage := m
  rot := .rot0
  vcom := p.vcomReset
  seq := .idle
  selectHigh := false
  busOpen := false
  inputs := []
  dataIn := []
  dataOut := []
  responses := []
  events := []
  transport := .always
  dataOutReady := .always

/-- The reset state the host's interface asks for: the default display with no byte of storage listed.
Statements about reset are made over `State.resetWith`, every display and every contents. -/
def State.reset : State := State.powerOn Params.default []

end Sys2Proof.Machine
end

