-- ==== Sys2Proof/Machine/Ops.lean ====
section
/-! DEFINITION. The named operations over storage, the ports and the sequencer that every meaning is
written with. SMDC raises no exception (R171), so there is no entry or return to share; the one answer to
an abnormal word, `ILLEGAL`, is `State.rejectWord` (R56). -/

namespace Sys2Proof.Machine

open Sys2Proof

/-! Sizes. -/

/-- `ROW_BYTES = ceil(RAW_W / 8)` (R6). -/
def rowBytes (p : Params) : Nat := (p.rawW + 7) / 8

/-- `N`, the storage length in bytes (R5). -/
def storageSize (p : Params) : Nat := rowBytes p * p.rawH

/-! Storage as cells. -/

/-- The byte at an index: the listed one, else `Memory.unlisted`. -/
def Memory.read : Memory → Nat → Byte
  | [], _ => Memory.unlisted
  | (a, b) :: m, i => if a < i then Memory.read m i else if a = i then b else Memory.unlisted

/-- A cell put before cells of higher address, unless it reads as an unlisted one does. -/
def Memory.put (i : Nat) (v : Byte) (m : Memory) : Memory :=
  if v = Memory.unlisted then m else (i, v) :: m

/-- `MemWrite(i, 1, v)` of R38, keeping the canonical form. -/
def Memory.write : Memory → Nat → Byte → Memory
  | [], i, v => Memory.put i v []
  | (a, b) :: m, i, v =>
    if a < i then (a, b) :: Memory.write m i v
    else if a = i then Memory.put i v m
    else Memory.put i v ((a, b) :: m)

/-- Addresses strictly rising from `lo` on, no cell equal to an unlisted one. -/
def Memory.wfFrom : Nat → Memory → Bool
  | _, [] => true
  | lo, (a, b) :: m => decide (lo ≤ a) && b != Memory.unlisted && Memory.wfFrom (a + 1) m

/-- The canonical form of storage. -/
def Memory.wf (m : Memory) : Bool := Memory.wfFrom 0 m

/-- Every listed address is below `n`. -/
def Memory.below (n : Nat) (m : Memory) : Bool := m.all fun c => decide (c.1 < n)

/-- The cells of given bytes from index 0 on, in canonical form. -/
def Memory.ofBytes (bytes : List Byte) : Memory :=
  (bytes.zipIdx.map fun c => (c.2, c.1)).filter fun c => c.2 != Memory.unlisted

/-! Masked writes: every write of every command is a list of these (R36, R38). -/

/-- One masked write `write_masked(index, mask, val)`. -/
structure Edit where
  index : Nat
  mask : Byte
  val : Byte
deriving DecidableEq, Repr

/-- The byte R36 stores: bits under the mask from `val`, the others kept. -/
def maskedByte (old mask val : Byte) : Byte := (old &&& ~~~mask) ||| (val &&& mask)

/-- The plain write `storage[i] <- v`, which is `write_masked(i, 0xFF, v)` (R36). -/
def plainWrite (i : Nat) (v : Byte) : Edit := ⟨i, 0xFF#8, v⟩

/-- One masked write (R36). -/
def Memory.edit (m : Memory) (e : Edit) : Memory :=
  m.write e.index (maskedByte (m.read e.index) e.mask e.val)

/-- Masked writes in order. -/
def Memory.edits (m : Memory) (es : List Edit) : Memory := es.foldl Memory.edit m

/-- The byte of storage at an index that exists. -/
def State.byte (s : State) (i : Nat) : Byte := s.storage.read i

/-- Writes to storage: a fault at the first index that does not exist (R30), else every masked write. -/
def State.store (s : State) (es : List Edit) : Answer :=
  match es.find? fun e => !decide (e.index < storageSize s.params) with
  | some e => .fault (.outsideStorage e.index)
  | none => .next { s with storage := s.storage.edits es }

/-- Reads of storage: a fault at the first index that does not exist (R30), else the bytes. -/
def State.fetch (s : State) (is : List Nat) : Except Fault (List Byte) :=
  match is.find? fun i => !decide (i < storageSize s.params) with
  | some i => .error (.outsideStorage i)
  | none => .ok (is.map s.byte)

/-- Go on from a next state; a fault or refusal stays. -/
def andThen (o : Answer) (f : State → Answer) : Answer :=
  match o with
  | .next s => f s
  | .fault r => .fault r
  | .refused r => .refused r

/-- Go on from bytes read; a fault stays. -/
def withBytes (o : Except Fault (List Byte)) (f : List Byte → Answer) : Answer :=
  match o with
  | .ok bs => f bs
  | .error r => .fault r

/-! The ports. -/

/-- `respond(v)`: place a response on the response port (R19). -/
def State.respond (s : State) (r : Response) : State :=
  { s with responses := s.responses ++ [r] }

/-- The command in progress completes with this response and the sequencer is idle (R19, R22). -/
def State.finish (s : State) (r : Response) : State :=
  { s with seq := .idle, responses := s.responses ++ [r] }

/-- `emit(e)`: the Transport takes the event; the select line and the transaction follow it (R150). -/
def State.emit (s : State) (e : TxEvent) : State :=
  match e with
  | .txBegin => { s with events := s.events ++ [e], busOpen := true }
  | .cs level => { s with events := s.events ++ [e], selectHigh := level }
  | .byte _ => { s with events := s.events ++ [e] }
  | .txEnd => { s with events := s.events ++ [e], busOpen := false }

/-- The Transport's readiness changes; nothing else does. -/
def State.withTransport (s : State) (r : Readiness) : State := { s with transport := r }

/-- The command stays in progress with this progress kept (R22, R157). -/
def State.wait (s : State) (q : Sequencer) : State := { s with seq := q }

/-- How many of `want` transfers the other side accepts now. -/
def Readiness.grant : Readiness → Nat → Nat
  | .always, want => want
  | .upTo n, want => min n want

/-- The readiness left after `k` transfers. -/
def Readiness.spend : Readiness → Nat → Readiness
  | .always, _ => .always
  | .upTo n, k => .upTo (n - k)

/-! The sequencer and the status wires. -/

/-- `busy`: a command has been accepted and has not completed (R21). -/
def State.busy (s : State) : Bool := s.seq != .idle

/-- `cmd_ready` (R17). -/
def State.cmdReady (s : State) : Bool := !s.busy

/-- A command is accepted only when SMDC is idle (R17, R178); a second one has no move (R45, U1). -/
def State.whenIdle (s : State) (meaning : Answer) : Answer :=
  if s.busy then .refused .commandWhileBusy else meaning

/-- A drawing command: its masked writes, then `DONE` (R133). -/
def State.draw (s : State) (es : List Edit) : Answer :=
  andThen (s.store es) fun t => .next (t.respond .done)

/-- An illegal word: accepted, no state changes, answer `ILLEGAL` (R56, R177). -/
def State.rejectWord (s : State) : State := s.respond .illegal

/-! Reset. -/

/-- The state after reset of an SMDC with these parameters, whose storage holds these bytes from index 0 on
(R23: any bytes). -/
def State.resetWith (p : Params) (contents : List Byte) : State :=
  State.powerOn p (Memory.ofBytes (contents.take (storageSize p)))

/-- The reset input on an idle SMDC (R190): the three architectural items and the progress state take their
reset values; no event and no response is given, and what the ports have delivered stays delivered
(log entry 14). -/
def State.resetInput (s : State) (contents : List Byte) : State :=
  { s with
    storage := Memory.ofBytes (contents.take (storageSize s.params))
    rot := .rot0
    vcom := s.params.vcomReset
    seq := .idle
    selectHigh := false
    busOpen := false }

end Sys2Proof.Machine
end

