-- ==== Sys2Proof/Machine/Operands.lean ====
section
/-! DEFINITION. The operand forms of the commands: logical and raw coordinates, bounds, rotation, byte index
and bit mask, negative widths, rejection and clipping. All on mathematical integers (R120). -/

namespace Sys2Proof.Machine

open Sys2Proof

/-! Logical geometry (R16). -/

/-- `width()`. -/
def width (p : Params) : Rotation → Nat
  | .rot0 => p.rawW
  | .rot1 => p.rawH
  | .rot2 => p.rawW
  | .rot3 => p.rawH

/-- `height()`. -/
def height (p : Params) : Rotation → Nat
  | .rot0 => p.rawH
  | .rot1 => p.rawW
  | .rot2 => p.rawH
  | .rot3 => p.rawW

/-- The status wire `rot_o[1:0]` (R21), by its value's name. -/
def State.rotOut (s : State) : Rotation := s.rot

/-- The status wire `width_o` (R21). -/
def State.widthOut (s : State) : Nat := width s.params s.rot

/-- The status wire `height_o` (R21). -/
def State.heightOut (s : State) : Nat := height s.params s.rot

/-- `in_bounds(x, y)` (R80). -/
def inBounds (p : Params) (r : Rotation) (x y : Int) : Bool :=
  decide (0 ≤ x) && decide (x < width p r) && decide (0 ≤ y) && decide (y < height p r)

/-- `rotate(x, y)`: the table of R81. -/
def rotate (p : Params) (r : Rotation) (x y : Int) : Int × Int :=
  match r with
  | .rot0 => (x, y)
  | .rot1 => (p.rawW - 1 - y, x)
  | .rot2 => (p.rawW - 1 - x, p.rawH - 1 - y)
  | .rot3 => (y, p.rawH - 1 - x)

/-- The inverse of `rotate`, raw to logical: the table of R83. -/
def unrotate (p : Params) (r : Rotation) (xr yr : Int) : Int × Int :=
  match r with
  | .rot0 => (xr, yr)
  | .rot1 => (yr, p.rawW - 1 - xr)
  | .rot2 => (p.rawW - 1 - xr, p.rawH - 1 - yr)
  | .rot3 => (p.rawH - 1 - yr, xr)

/-- Raw x of an in-bounds logical point. -/
def rawX (p : Params) (r : Rotation) (x y : Int) : Nat := (rotate p r x y).1.toNat

/-- Raw y of an in-bounds logical point. -/
def rawY (p : Params) (r : Rotation) (x y : Int) : Nat := (rotate p r x y).2.toNat

/-! Bit packing. -/

/-- `byte_index(xr, yr)` (R31). -/
def byteIndex (p : Params) (xr yr : Nat) : Nat := xr / 8 + yr * rowBytes p

/-- `bit_mask(xr) = 1 << (xr mod 8)` (R32). -/
def bitMask (xr : Nat) : Byte := 1#8 <<< (xr % 8)

/-- `clr_mask(xr)` (R32). -/
def clrMask (xr : Nat) : Byte := 0xFF#8 ^^^ bitMask xr

/-- `write_bit(xr, yr, b)` as the masked write R34 says it equals. -/
def bitEdit (p : Params) (xr yr : Nat) (b : Bool) : Edit :=
  ⟨byteIndex p xr yr, bitMask xr, if b then 0xFF#8 else 0x00#8⟩

/-- Bit `xr mod 8` of a byte: the value of `read_bit` (R35) when `b` is the byte at `byte_index`. -/
def bitOf (b : Byte) (xr : Nat) : Bool := (b >>> (xr % 8)) &&& 1#8 == 1#8

/-- `read_bit(xr, yr)` (R35) on a storage. -/
def Memory.pixel (m : Memory) (p : Params) (xr yr : Nat) : Bool :=
  bitOf (m.read (byteIndex p xr yr)) xr

/-- The stored pixel at raw coordinates. -/
def State.pixel (s : State) (xr yr : Nat) : Bool := s.storage.pixel s.params xr yr

/-! Runs. -/

/-- `normalise(x, w)`: a negative width is the run that ends at `x` (R123). -/
def normalise (x w : Int) : Int × Int :=
  if w < 0 then (x - (-w - 1), -w) else (x, w)

/-- `rejected(x, y, w)` of a normalised run (R124). -/
def rejected (p : Params) (r : Rotation) (x y w : Int) : Bool :=
  decide (w = 0) || decide (y < 0) || decide (y ≥ height p r) ||
  decide (x ≥ width p r) || decide (x + w - 1 < 0)

/-- First coordinate of a run clipped to `0 .. size-1` (R124, R126, R131). -/
def clipLow (x : Int) : Int := max x 0

/-- Last coordinate of the run of `w` from `x` clipped to `0 .. size-1` (R124, R126, R131). -/
def clipHigh (size : Nat) (x w : Int) : Int := min (x + w - 1) (size - 1)

/-- `clip(x, w)` of a normalised run that is not rejected (R124). -/
def clip (p : Params) (r : Rotation) (x w : Int) : Int × Int :=
  (clipLow x, clipHigh (width p r) x w - clipLow x + 1)

end Sys2Proof.Machine
end

