-- ==== Sys2Proof/Machine/Dither.lean ====
section
/-! DEFINITION. The Dither Pattern Table (41_dither.md): the bit stored for a code at a raw position, and the
byte of eight of them. Pure functions of code and raw position (R26, R100). -/

namespace Sys2Proof.Machine

open Sys2Proof

/-- Code 2, checkerboard (R101). -/
def patternGray50 (xr yr : Nat) : Bool := decide ((xr + yr) % 2 = 0)

/-- Code 3 (R102). -/
def patternDark (xr yr : Nat) : Bool :=
  if yr % 2 = 1 then false else decide ((xr + 2 * (yr / 2 % 2)) % 4 = 0)

/-- Code 4 (R103). -/
def patternLight (xr yr : Nat) : Bool :=
  if yr % 2 = 1 then true else !decide ((xr + 2 * (yr / 2 % 2)) % 4 = 0)

/-- Code 5 (R104). -/
def patternFine (xr yr : Nat) : Bool :=
  !((decide (yr % 4 = 0) && decide (xr % 4 = 2)) ||
    (decide (xr % 2 = 1) && decide (yr % 2 = 1)) ||
    (decide (yr % 4 = 2) && decide (xr % 4 = 0)))

/-- Code 6 (R105). -/
def patternDiag (xr yr : Nat) : Bool := !decide (yr % 3 = xr % 3)

/-- Code 7 (R106). -/
def patternDiagr (xr yr : Nat) : Bool := !decide (yr % 3 = 2 - xr % 3)

/-- `colour_bit(code, xr, yr)`, the one function of every drawing path (R107, R111). -/
def colourBit (code : Code) (xr yr : Nat) : Bool :=
  match code with
  | .black => false
  | .white => true
  | .gray50 => patternGray50 xr yr
  | .dark => patternDark xr yr
  | .light => patternLight xr yr
  | .fine => patternFine xr yr
  | .diag => patternDiag xr yr
  | .diagr => patternDiagr xr yr

/-- The horizontal and vertical period of a texture (R110); 1 for the solid colours. -/
def period : Code → Nat
  | .black => 1
  | .white => 1
  | .gray50 => 2
  | .dark => 4
  | .light => 4
  | .fine => 4
  | .diag => 3
  | .diagr => 3

/-- The byte whose bit `b` is `f b`: the sum of `f b << b` over `b` in 0..7. -/
def byteOfBits (f : Nat → Bool) : Byte :=
  BitVec.ofNat 8 (((List.range 8).map fun b => (f b).toNat <<< b).sum)

/-- `fill_byte(code, yr, k)`: the eight colour bits of byte column `k` in row `yr` (R108). -/
def fillByte (code : Code) (yr k : Nat) : Byte :=
  byteOfBits fun b => colourBit code (8 * k + b) yr

/-- The table `S` of R109: the byte whose zero bits are at positions congruent to the index. -/
def stripeByte (i : Nat) : Byte :=
  match i with
  | 0 => 0xB6#8
  | 1 => 0x6D#8
  | _ => 0xDB#8

/-- One of four bytes, by `yr mod 4`. -/
def byRow4 (yr : Nat) (b0 b1 b2 b3 : Byte) : Byte :=
  match yr % 4 with
  | 0 => b0
  | 1 => b1
  | 2 => b2
  | _ => b3

/-- The closed form of `fill_byte` (R109). No meaning uses it; it is what R109 states of `fillByte`. -/
def fillByteClosed (code : Code) (yr k : Nat) : Byte :=
  match code with
  | .black => 0x00#8
  | .white => 0xFF#8
  | .gray50 => if yr % 2 = 0 then 0x55#8 else 0xAA#8
  | .dark => byRow4 yr 0x11#8 0x00#8 0x44#8 0x00#8
  | .light => byRow4 yr 0xEE#8 0xFF#8 0xBB#8 0xFF#8
  | .fine => byRow4 yr 0xBB#8 0x55#8 0xEE#8 0x55#8
  | .diag => stripeByte ((yr + k) % 3)
  | .diagr => stripeByte ((2 + k + 2 * (yr % 3)) % 3)

end Sys2Proof.Machine
end

