-- ==== Sys2Proof/Machine/FrameBuffer.lean ====
section
/-! DEFINITION. The BitFrameBuffer commands (40_framebuffer.md): SETPIX, GETPIX, CLEAR, SNAPSHOT, RESTORE,
SETROT. -/

namespace Sys2Proof.Machine

open Sys2Proof

/-- The masked write of SETPIX: none out of bounds, else the one bit at the rotated point, coloured by the
raw position (R82). -/
def setpixEdits (p : Params) (r : Rotation) (x y : Int) (code : Code) : List Edit :=
  if inBounds p r x y then
    [bitEdit p (rawX p r x y) (rawY p r x y) (colourBit code (rawX p r x y) (rawY p r x y))]
  else []

/-- SETPIX (R82). -/
def execSetpix (x y : Int) (code : Code) (s : State) : Answer :=
  s.whenIdle (s.draw (setpixEdits s.params s.rot x y code))

/-- GETPIX (R84): the stored bit at the rotated point, `OOB_READ` out of bounds. -/
def execGetpix (x y : Int) (s : State) : Answer :=
  s.whenIdle
    (if inBounds s.params s.rot x y then
      withBytes (s.fetch [byteIndex s.params (rawX s.params s.rot x y) (rawY s.params s.rot x y)])
        fun bs => .next (s.respond (.pixel (bitOf (bs.headD 0x00#8) (rawX s.params s.rot x y))))
    else .next (s.respond (.pixel s.params.oobRead)))

/-- `for i in 0 .. N-1: storage[i] <- 0xFF` (R85, R153). -/
def whiteEdits (p : Params) : List Edit :=
  (List.range (storageSize p)).map fun i => plainWrite i 0xFF#8

/-- CLEAR (R85). -/
def execClear (s : State) : Answer :=
  s.whenIdle (s.draw (whiteEdits s.params))

/-- SNAPSHOT from byte `n` on (R88): as many bytes as the host takes, in ascending index; when all `N` are
taken it completes with `DATA` of all of storage, else it waits. -/
def State.streamFrom (s : State) (n : Nat) : Answer :=
  let k := s.dataOutReady.grant (storageSize s.params - n)
  withBytes (s.fetch (List.range' n k)) fun sent =>
    let t := { s with dataOut := s.dataOut ++ sent, dataOutReady := s.dataOutReady.spend k }
    if n + k < storageSize s.params then .next (t.wait (.streaming (n + k)))
    else withBytes (s.fetch (List.range (storageSize s.params))) fun bytes => .next (t.finish (.data bytes))

/-- SNAPSHOT (R88). -/
def execSnapshot (s : State) : Answer :=
  s.whenIdle (s.streamFrom 0)

/-- The writes `storage[i] <- src[i]` of payload bytes whose first has index `n` (R89). -/
def payloadEdits (n : Nat) (bytes : List Byte) : List Edit :=
  (bytes.zipIdx n).map fun c => plainWrite c.2 c.1

/-- RESTORE from byte `n` on (R89): it consumes the bytes offered on data-in, up to `N`, each stored as it is
consumed; when `N` are stored it completes, else it waits for the rest. -/
def State.loadFrom (s : State) (n : Nat) : Answer :=
  let bytes := s.dataIn.take (storageSize s.params - n)
  andThen (s.store (payloadEdits n bytes)) fun t =>
    let u := { t with dataIn := s.dataIn.drop (storageSize s.params - n) }
    if n + bytes.length < storageSize s.params then .next (u.wait (.restoring (n + bytes.length)))
    else .next (u.finish .done)

/-- RESTORE (R89). -/
def execRestore (s : State) : Answer :=
  s.whenIdle (s.loadFrom 0)

/-- SETROT (R90). -/
def execSetrot (r : Rotation) (s : State) : Answer :=
  s.whenIdle (.next ({ s with rot := r }.respond .done))

end Sys2Proof.Machine
end

