-- ==== Sys2Proof/Machine/Flags.lean ====
section
/-! DEFINITION. SMDC has no status flags or condition codes (R24). Its one flag is the Bias/VCOM flag: its
byte form and its toggle. -/

namespace Sys2Proof.Machine

open Sys2Proof

/-- `vcom_byte()` (R15). -/
def vcomByte (p : Params) (vcom : Bool) : Byte := if vcom then p.vcomMask else 0x00#8

/-- The named toggle `vcom <- vcom ^ 1`, the only transition of the bias flag (R155). -/
def State.toggleVcom (s : State) : State := { s with vcom := s.vcom ^^ true }

end Sys2Proof.Machine
end

