-- ==== Sys2Proof/Machine/Protocol.lean ====
section
/-! DEFINITION. The ProtocolEncoder (43_protocol.md): the two frames, the run of a frame's operations against
the Transport, REFRESH and CLEARTX. -/

namespace Sys2Proof.Machine

open Sys2Proof

/-- `emit(BYTE(b))` for each byte in order. -/
def emitBytes (bytes : List Byte) : List TxOp := bytes.map fun b => .emit (.byte b)

/-- The storage indexes of raw scan line `L` (R40). -/
def lineIndexes (p : Params) (line : Nat) : List Nat :=
  (List.range (rowBytes p)).map fun k => line * rowBytes p + k

/-- One scan line of a refresh frame (R59, R62): 1-based address, the bytes as stored, a zero trailer. -/
def lineOps (s : State) (line : Nat) : List TxOp :=
  emitBytes (BitVec.ofNat 8 (line + 1) :: (lineIndexes s.params line).map s.byte ++ [0x00#8])

/-- The pseudocode of REFRESH between acceptance and response (R152). -/
def refreshOps (s : State) : List TxOp :=
  [.emit .txBegin, .emit (.cs true),
   .emit (.byte (vcomByte s.params s.vcom ||| s.params.writeCommand)), .toggle] ++
  (List.range s.params.rawH).flatMap (lineOps s) ++
  [.emit (.byte 0x00#8), .emit (.cs false), .emit .txEnd]

/-- The pseudocode of CLEARTX after the storage is white (R153). -/
def clearOps (s : State) : List TxOp :=
  [.emit .txBegin, .emit (.cs true),
   .emit (.byte (vcomByte s.params s.vcom ||| s.params.clearCommand)), .emit (.byte 0x00#8),
   .toggle, .emit (.cs false), .emit .txEnd]

/-- Run a frame's operations in order: each event waits until the Transport accepts it (R150). If it does not,
the command stays in progress with what remains (R157); at the end it completes with `DONE`. -/
def runTx : List TxOp → State → State
  | [], s => s.finish .done
  | .toggle :: ops, s => runTx ops s.toggleVcom
  | .emit e :: ops, s =>
    match s.transport with
    | .always => runTx ops (s.emit e)
    | .upTo 0 => s.wait (.transmitting (.emit e :: ops))
    | .upTo (n + 1) => runTx ops ((s.withTransport (.upTo n)).emit e)

/-- REFRESH (R152). All of storage is read as it was at acceptance (R42). -/
def execRefresh (s : State) : Answer :=
  s.whenIdle
    (withBytes (s.fetch ((List.range s.params.rawH).flatMap (lineIndexes s.params))) fun _ =>
      .next (runTx (refreshOps s) s))

/-- CLEARTX (R153): storage white first, then the clear frame. -/
def execCleartx (s : State) : Answer :=
  s.whenIdle (andThen (s.store (whiteEdits s.params)) fun t => .next (runTx (clearOps t) t))

end Sys2Proof.Machine
end

