-- ==== Sys2Proof/Machine/Raster.lean ====
section
/-! DEFINITION. The Rasterizer (42_rasterizer.md): the byte-level row writer, the single-bit column writer,
and FILLRECT, HLINE, RAWHLINE, RAWVLINE. -/

namespace Sys2Proof.Machine

open Sys2Proof

/-- The mask of bits `s .. e` of a byte (R127, R128). -/
def spanMask (s e : Nat) : Byte := (0xFF#8 <<< s) &&& (0xFF#8 >>> (7 - e))

/-- The mask of bits `0 .. n-1` of a byte (R127, R128). -/
def tailMask (n : Nat) : Byte := (1#8 <<< n) - 1#8

/-- Segments 2 and 3 of R127: whole bytes from byte column `k` of row `y` while 8 pixels remain, then the
remaining bits. -/
def alignedRunEdits (p : Params) (code : Code) (y k n : Nat) : List Edit :=
  ((List.range (n / 8)).map fun j => plainWrite (y * rowBytes p + (k + j)) (fillByte code y (k + j))) ++
  if 0 < n % 8 then
    [⟨y * rowBytes p + (k + n / 8), tailMask (n % 8), fillByte code y (k + n / 8)⟩]
  else []

/-- `raw_hline(x, y, w, code)`, the byte-level writer (R127): a leading partial byte if the run does not
start at a byte, then segments 2 and 3. -/
def rawHlineEdits (p : Params) (code : Code) (x y w : Nat) : List Edit :=
  if x % 8 = 0 then alignedRunEdits p code y (x / 8) w
  else
    let e := min 7 (x % 8 + w - 1)
    ⟨y * rowBytes p + x / 8, spanMask (x % 8) e, fillByte code y (x / 8)⟩ ::
      alignedRunEdits p code y (x / 8 + 1) (w - (e - x % 8 + 1))

/-- `raw_vline(x, y, h, code)`, the single-bit column writer (R132). -/
def rawVlineEdits (p : Params) (code : Code) (x y h : Nat) : List Edit :=
  (List.range h).map fun j => bitEdit p x (y + j) (colourBit code x (y + j))

/-- Rotation dispatch of a clipped logical run (R125). -/
def dispatchEdits (p : Params) (r : Rotation) (code : Code) (x y w : Int) : List Edit :=
  match r with
  | .rot0 => rawHlineEdits p code x.toNat y.toNat w.toNat
  | .rot1 => rawVlineEdits p code (p.rawW - 1 - y).toNat x.toNat w.toNat
  | .rot2 => rawHlineEdits p code (p.rawW - 1 - x - (w - 1)).toNat (p.rawH - 1 - y).toNat w.toNat
  | .rot3 => rawVlineEdits p code y.toNat (p.rawH - 1 - x - (w - 1)).toNat w.toNat

/-- `hline(x, y, w, code)`: normalise, reject, clip, dispatch (R122). -/
def hlineEdits (p : Params) (r : Rotation) (x y w : Int) (code : Code) : List Edit :=
  let run := normalise x w
  if rejected p r run.1 y run.2 then []
  else
    let c := clip p r run.1 run.2
    dispatchEdits p r code c.1 y c.2

/-- HLINE (R122). -/
def execHline (x y w : Int) (code : Code) (s : State) : Answer :=
  s.whenIdle (s.draw (hlineEdits s.params s.rot x y w code))

/-- The rows of FILLRECT that lie on the canvas, ascending (R121: the result is as if the others were
skipped). There is none when `h ≤ 0`. -/
def rectRows (p : Params) (r : Rotation) (y h : Int) : List Int :=
  let lo := clipLow y
  (List.range (clipHigh (height p r) y h - lo + 1).toNat).map fun j => lo + j

/-- FILLRECT's writes: one `hline` for each row (R121). -/
def fillrectEdits (p : Params) (r : Rotation) (x y w h : Int) (code : Code) : List Edit :=
  (rectRows p r y h).flatMap fun yy => hlineEdits p r x yy w code

/-- FILLRECT (R121). -/
def execFillrect (x y w h : Int) (code : Code) (s : State) : Answer :=
  s.whenIdle (s.draw (fillrectEdits s.params s.rot x y w h code))

/-- RAWHLINE's writes: the run clipped to the raw canvas, empty when `w ≤ 0` (R126). -/
def rawhlineClipped (p : Params) (x y w : Int) (code : Code) : List Edit :=
  if w ≤ 0 ∨ y < 0 ∨ y ≥ p.rawH then []
  else
    let lo := clipLow x
    let hi := clipHigh p.rawW x w
    if lo > hi then [] else rawHlineEdits p code lo.toNat y.toNat (hi - lo + 1).toNat

/-- RAWHLINE (R126). -/
def execRawhline (x y w : Int) (code : Code) (s : State) : Answer :=
  s.whenIdle (s.draw (rawhlineClipped s.params x y w code))

/-- RAWVLINE's writes: the run clipped to the raw canvas, empty when `h ≤ 0` (R131). -/
def rawvlineClipped (p : Params) (x y h : Int) (code : Code) : List Edit :=
  if h ≤ 0 ∨ x < 0 ∨ x ≥ p.rawW then []
  else
    let lo := clipLow y
    let hi := clipHigh p.rawH y h
    if lo > hi then [] else rawVlineEdits p code x.toNat lo.toNat (hi - lo + 1).toNat

/-- RAWVLINE (R131). -/
def execRawvline (x y h : Int) (code : Code) (s : State) : Answer :=
  s.whenIdle (s.draw (rawvlineClipped s.params x y h code))

end Sys2Proof.Machine
end

