-- ==== Sys2Proof/Machine/Dispatch.lean ====
section
/-! DEFINITION. One arm per command of R52. -/

namespace Sys2Proof.Machine

open Sys2Proof

def exec (i : Instr) (s : State) : Host.Outcome State Fault Refusal :=
  match i with
  | .setpix x y code => Sys2Proof.Machine.execSetpix x y code s
  | .getpix x y => Sys2Proof.Machine.execGetpix x y s
  | .clear => Sys2Proof.Machine.execClear s
  | .snapshot => Sys2Proof.Machine.execSnapshot s
  | .restore => Sys2Proof.Machine.execRestore s
  | .setrot r => Sys2Proof.Machine.execSetrot r s
  | .fillrect x y w h code => Sys2Proof.Machine.execFillrect x y w h code s
  | .hline x y w code => Sys2Proof.Machine.execHline x y w code s
  | .rawhline x y w code => Sys2Proof.Machine.execRawhline x y w code s
  | .rawvline x y h code => Sys2Proof.Machine.execRawvline x y h code s
  | .refresh => Sys2Proof.Machine.execRefresh s
  | .cleartx => Sys2Proof.Machine.execCleartx s

end Sys2Proof.Machine
end

