-- ==== Sys2Proof/WellFormed.lean ====
section
/-! DEFINITION. Which terms of `Instr` a command word can carry: every coordinate and length is a signed
16-bit operand (R51). Colours and rotations are well formed by their types. -/

namespace Sys2Proof

/-- The range of a two's-complement operand of `CW = 16` bits (R5, R51). -/
def fitsOperand (v : Int) : Bool := decide (-32768 ≤ v) && decide (v ≤ 32767)

/-- Every operand the command reads fits its field. -/
def Instr.wf : Instr → Bool
  | .setpix x y _ => fitsOperand x && fitsOperand y
  | .getpix x y => fitsOperand x && fitsOperand y
  | .clear => true
  | .snapshot => true
  | .restore => true
  | .setrot _ => true
  | .fillrect x y w h _ => fitsOperand x && fitsOperand y && fitsOperand w && fitsOperand h
  | .hline x y w _ => fitsOperand x && fitsOperand y && fitsOperand w
  | .rawhline x y w _ => fitsOperand x && fitsOperand y && fitsOperand w
  | .rawvline x y h _ => fitsOperand x && fitsOperand y && fitsOperand h
  | .refresh => true
  | .cleartx => true

end Sys2Proof
end

