-- ==== Sys2Proof/Decode.lean ====
section
/-! DEFINITION. The command word of 30_encoding.md part 1: its fields, the decoder (total, rejecting by
name), the encoder, and the assembler text of R63. -/

namespace Sys2Proof

/-- The opcode column of R52, one name per row. -/
inductive Opcode where
  | setpix | getpix | clear | snapshot | restore | setrot
  | fillrect | hline | rawhline | rawvline
  | refresh | cleartx
deriving DecidableEq, Repr

/-- The `op` value of a row of R52. -/
def Opcode.byte : Opcode → Byte
  | .setpix => 0x01#8
  | .getpix => 0x02#8
  | .clear => 0x03#8
  | .snapshot => 0x04#8
  | .restore => 0x05#8
  | .setrot => 0x06#8
  | .fillrect => 0x10#8
  | .hline => 0x11#8
  | .rawhline => 0x12#8
  | .rawvline => 0x13#8
  | .refresh => 0x20#8
  | .cleartx => 0x21#8

/-- The rows of R52. -/
def Opcode.all : List Opcode :=
  [.setpix, .getpix, .clear, .snapshot, .restore, .setrot,
   .fillrect, .hline, .rawhline, .rawvline, .refresh, .cleartx]

/-- The row whose `op` is this byte, if there is one. -/
def Opcode.ofByte (b : Byte) : Option Opcode :=
  Opcode.all.find? fun o => o.byte == b

/-- The code operand's value 0 to 7 (R51, R64). -/
def Code.toBits : Code → BitVec 3
  | .black => 0#3
  | .white => 1#3
  | .gray50 => 2#3
  | .dark => 3#3
  | .light => 4#3
  | .fine => 5#3
  | .diag => 6#3
  | .diagr => 7#3

/-- Every 3-bit code is legal (R51). -/
def Code.ofBits (b : BitVec 3) : Code :=
  match b.toNat with
  | 0 => .black
  | 1 => .white
  | 2 => .gray50
  | 3 => .dark
  | 4 => .light
  | 5 => .fine
  | 6 => .diag
  | _ => .diagr

/-- The value 0 to 3 of a rotation (R14). -/
def Rotation.toBits : Rotation → BitVec 2
  | .rot0 => 0#2
  | .rot1 => 1#2
  | .rot2 => 2#2
  | .rot3 => 3#2

/-- All four encodings are legal (R14). -/
def Rotation.ofBits (b : BitVec 2) : Rotation :=
  match b.toNat with
  | 0 => .rot0
  | 1 => .rot1
  | 2 => .rot2
  | _ => .rot3

/-! The fields of `CMD80` (R50). -/

/-- `op = CMD[79:72]`. -/
def fieldOp (w : CmdWord) : Byte := w.extractLsb' 72 8

/-- `rsv = CMD[71:67]`. -/
def fieldRsv (w : CmdWord) : BitVec 5 := w.extractLsb' 67 5

/-- `code = CMD[66:64]`. -/
def fieldCode (w : CmdWord) : BitVec 3 := w.extractLsb' 64 3

/-- `a = CMD[63:48]`. -/
def fieldA (w : CmdWord) : BitVec 16 := w.extractLsb' 48 16

/-- `b = CMD[47:32]`. -/
def fieldB (w : CmdWord) : BitVec 16 := w.extractLsb' 32 16

/-- `c = CMD[31:16]`. -/
def fieldC (w : CmdWord) : BitVec 16 := w.extractLsb' 16 16

/-- `d = CMD[15:0]`. -/
def fieldD (w : CmdWord) : BitVec 16 := w.extractLsb' 0 16

/-- `sext_16` of R8: the signed value of an operand field. -/
def signedOperand (v : BitVec 16) : Int := v.toInt

/-- The 16-bit field that carries a signed operand. -/
def operandField (v : Int) : BitVec 16 := BitVec.ofInt 16 v

/-- SETROT reads `CMD[49:48]`, the two low bits of field `a` (R90). -/
def rotationOperand (a : BitVec 16) : Rotation := Rotation.ofBits (a.extractLsb' 0 2)

/-- The assembler operand `r` of SETROT is taken modulo 4 (R90). -/
def rotationOfInt (r : Int) : Rotation := rotationOperand (operandField r)

/-- Why a word is no command, in the order R55 and R179 give. -/
inductive IllegalWord where
  /-- `rsv` is not zero (R54). -/
  | reservedBits
  /-- `op` is none of the twelve values of R52 (R56). -/
  | unknownOpcode
deriving DecidableEq, Repr

/-- The command of a row of R52 with the operands of R51; fields the row does not name are ignored
(R53). -/
def decodeRow (o : Opcode) (w : CmdWord) : Instr :=
  let code := Code.ofBits (fieldCode w)
  let a := signedOperand (fieldA w)
  let b := signedOperand (fieldB w)
  let c := signedOperand (fieldC w)
  let d := signedOperand (fieldD w)
  match o with
  | .setpix => .setpix a b code
  | .getpix => .getpix a b
  | .clear => .clear
  | .snapshot => .snapshot
  | .restore => .restore
  | .setrot => .setrot (rotationOperand (fieldA w))
  | .fillrect => .fillrect a b c d code
  | .hline => .hline a b c code
  | .rawhline => .rawhline a b c code
  | .rawvline => .rawvline a b c code
  | .refresh => .refresh
  | .cleartx => .cleartx

/-- Decoding, total and in the order of R55: reserved bits, then opcode, then operands, which never make
a word illegal. -/
def decode (w : CmdWord) : Except IllegalWord Instr :=
  if fieldRsv w ≠ 0#5 then .error .reservedBits
  else
    match Opcode.ofByte (fieldOp w) with
    | none => .error .unknownOpcode
    | some o => .ok (decodeRow o w)

/-- The row of a command. -/
def Instr.opcode : Instr → Opcode
  | .setpix _ _ _ => .setpix
  | .getpix _ _ => .getpix
  | .clear => .clear
  | .snapshot => .snapshot
  | .restore => .restore
  | .setrot _ => .setrot
  | .fillrect _ _ _ _ _ => .fillrect
  | .hline _ _ _ _ => .hline
  | .rawhline _ _ _ _ => .rawhline
  | .rawvline _ _ _ _ => .rawvline
  | .refresh => .refresh
  | .cleartx => .cleartx

/-- One word of the format `CMD80` (R50) with `rsv` zero (R54). -/
def pack (o : Opcode) (code : Code) (a b c d : Int) : CmdWord :=
  o.byte ++ 0#5 ++ code.toBits ++ operandField a ++ operandField b ++ operandField c ++ operandField d

/-- The assembler's word (R63): unused fields are zero. -/
def encode (i : Instr) : CmdWord :=
  match i with
  | .setpix x y code => pack i.opcode code x y 0 0
  | .getpix x y => pack i.opcode .black x y 0 0
  | .clear => pack i.opcode .black 0 0 0 0
  | .snapshot => pack i.opcode .black 0 0 0 0
  | .restore => pack i.opcode .black 0 0 0 0
  | .setrot r => pack i.opcode .black (Int.ofNat r.toBits.toNat) 0 0 0
  | .fillrect x y w h code => pack i.opcode code x y w h
  | .hline x y w code => pack i.opcode code x y w 0
  | .rawhline x y w code => pack i.opcode code x y w 0
  | .rawvline x y h code => pack i.opcode code x y h 0
  | .refresh => pack i.opcode .black 0 0 0 0
  | .cleartx => pack i.opcode .black 0 0 0 0

/-- The word a table row of `nbits` bits stands for: its bits numbered as `CMD[79:0]` are, every bit above
`nbits` zero. The word is presented in parallel and has no byte order (R39). -/
def tableWord (nbits w : Nat) : CmdWord := BitVec.ofNat 80 (w % 2 ^ nbits)

/-- What the decoder reads from the word of a table row. -/
def decodeTableWord (nbits w : Nat) : Option Instr :=
  match decode (tableWord nbits w) with
  | .ok i => some i
  | .error _ => none

/-- The mnemonic column of R52. -/
def Opcode.mnemonic : Opcode → String
  | .setpix => "SETPIX"
  | .getpix => "GETPIX"
  | .clear => "CLEAR"
  | .snapshot => "SNAPSHOT"
  | .restore => "RESTORE"
  | .setrot => "SETROT"
  | .fillrect => "FILLRECT"
  | .hline => "HLINE"
  | .rawhline => "RAWHLINE"
  | .rawvline => "RAWVLINE"
  | .refresh => "REFRESH"
  | .cleartx => "CLEARTX"

/-- The operands in the order of R63, the code last. -/
def Instr.operands : Instr → List Int
  | .setpix x y code => [x, y, code.toBits.toNat]
  | .getpix x y => [x, y]
  | .clear => []
  | .snapshot => []
  | .restore => []
  | .setrot r => [r.toBits.toNat]
  | .fillrect x y w h code => [x, y, w, h, code.toBits.toNat]
  | .hline x y w code => [x, y, w, code.toBits.toNat]
  | .rawhline x y w code => [x, y, w, code.toBits.toNat]
  | .rawvline x y h code => [x, y, h, code.toBits.toNat]
  | .refresh => []
  | .cleartx => []

/-- The command as the assembler writes it (R63): mnemonic, then the operands in decimal, separated by
commas. RESTORE's payload bytes are not part of the command and are not shown. -/
def Instr.text (i : Instr) : String :=
  i.opcode.mnemonic ++ (if i.operands.isEmpty then "" else " ") ++
    ", ".intercalate (i.operands.map toString)

end Sys2Proof
end

