-- ==== Sys2Proof/Machine/Port.lean ====
section
/-! DEFINITION. What a step does around a meaning: a command in progress goes on, the host's next input is
taken, its word decoded. SMDC has no program counter; the order of execution is the order of presentation
(R13). -/

namespace Sys2Proof.Machine

open Sys2Proof

/-- The command in progress goes on as far as its port lets it (R22, R157). -/
def State.resume (s : State) : Answer :=
  match s.seq with
  | .idle => .next s
  | .restoring n => s.loadFrom n
  | .streaming n => s.streamFrom n
  | .transmitting ops => .next (runTx ops s)

/-- The host asserts reset now. -/
def State.resetAsserted (s : State) : Bool :=
  match s.inputs with
  | .reset _ :: _ => true
  | _ => false

/-- A busy step: the command in progress goes on; while it cannot complete, a reset has no meaning (R193). -/
def State.continueCommand (s : State) : Answer :=
  andThen s.resume fun t =>
    if t.busy && t.resetAsserted then .refused .resetWhileBusy else .next t

/-- What the step is to do: an answer already, or a command to execute at a state. -/
inductive Work where
  | answered (a : Answer)
  | execute (i : Instr) (s : State)

/-- The work of an idle SMDC: nothing when the host presents nothing (R204), the reset, or the word presented,
which leaves the command port and is decoded (R17, R55, R56). -/
def State.takeInput (s : State) : Work :=
  match s.inputs with
  | [] => .answered (.next s)
  | .reset contents :: rest => .answered (.next ({ s with inputs := rest }.resetInput contents))
  | .command w :: rest =>
    match decode w with
    | .error _ => .answered (.next { s with inputs := rest }.rejectWord)
    | .ok i => .execute i { s with inputs := rest }

/-- The work of one step: none on parameters outside R5 (R7), the command in progress, or the host's next
input. -/
def State.work (s : State) : Work :=
  if s.params.wf then
    if s.busy then .answered s.continueCommand else s.takeInput
  else .answered (.refused .parametersOutOfRange)

/-- The host presents this word next to an SMDC that is idle (R22, R23): log entry 5. -/
def State.present (s : State) (w : CmdWord) : State :=
  { s with seq := .idle, selectHigh := false, busOpen := false, inputs := .command w :: s.inputs }

end Sys2Proof.Machine
end

