-- ==== Sys2Proof/Machine/Step.lean ====
section
/-! DEFINITION. One step of the machine, and the state in which the next step runs a given word. -/

namespace Sys2Proof.Machine

open Sys2Proof

/-- One step: the work of `State.work`, a command through `exec`. -/
def step (s : State) : Host.Outcome State Fault Refusal :=
  match s.work with
  | .answered a => a
  | .execute i t => exec i t

/-- `s` with the word of a table row presented on the command port, so that the next step accepts it. -/
def State.withFetchWord (s : State) (nbits w : Nat) : State := s.present (tableWord nbits w)

end Sys2Proof.Machine
end

