-- ==== Sys2Proof/Safety.lean ====
section
/-! DEFINITION. The terms claims are stated in: the invariant of the machine, bracketed frames, readiness that
covers a command, stalls, and the result of a run. -/

namespace Sys2Proof.Machine

open Sys2Proof

/-- What remains of a frame while the select line is HIGH (R158): bytes, at most one toggle among them (R155), then
`CS(0)` and `TXEND`, and nothing after. -/
def framedBody : List TxOp → Bool
  | .emit (.byte _) :: ops => framedBody ops
  | .toggle :: ops => !ops.contains .toggle && framedBody ops
  | ops => ops == [.emit (.cs false), .emit .txEnd]

/-- What remains of a frame is the end of the one nesting R158 fixes, `TXBEGIN`, `CS(1)`, bytes, `CS(0)`, `TXEND`, from
a bus that is open or not and a select line that is HIGH or not: the toggle is still to come until the line is HIGH
and is never made twice, and the line is HIGH on an open bus only. -/
def framed (opened sel : Bool) (ops : List TxOp) : Bool :=
  match opened, sel, ops with
  | false, false, [] => true
  | false, false, .emit .txBegin :: .emit (.cs true) :: body => body.contains .toggle && framedBody body
  | true, false, .emit (.cs true) :: body => body.contains .toggle && framedBody body
  | true, false, ops => ops == [.emit .txEnd]
  | true, true, body => framedBody body
  | _, _, _ => false

/-- The select line and the bus agree with the sequencer: low and closed unless a frame is in progress (R22),
and a byte counter has not reached the end (R88, R89). -/
def State.seqOk (s : State) : Bool :=
  match s.seq with
  | .idle => !s.busOpen && !s.selectHigh
  | .restoring n => decide (n < storageSize s.params) && !s.busOpen && !s.selectHigh
  | .streaming n => decide (n < storageSize s.params) && !s.busOpen && !s.selectHigh
  | .transmitting ops => framed s.busOpen s.selectHigh ops

/-- The invariant every step keeps: legal parameters (R5), storage canonical and only at indexes that exist
(R11, R47), the progress state consistent (R22, R158). -/
abbrev State.Inv (s : State) : Prop :=
  s.params.wf = true ∧ s.storage.wf = true ∧ s.storage.below (storageSize s.params) = true ∧
  s.seqOk = true

/-- The other side of the port takes at least `k` more transfers: the premise R157 asks for. -/
def Readiness.covers : Readiness → Nat → Bool
  | .always, _ => true
  | .upTo n, k => decide (k ≤ n)

/-- The readiness of a port that accepts `n` transfers and then as many as `r` says. -/
def Readiness.after (n : Nat) : Readiness → Readiness
  | .always => .always
  | .upTo m => .upTo (n + m)

/-- The port the command in progress needs gives it nothing: no byte offered to a RESTORE, none taken from a SNAPSHOT,
no event of a frame accepted (R88, R89, R157; E6 of R170). -/
def State.stalled (s : State) : Bool :=
  match s.seq with
  | .restoring n => decide (n < storageSize s.params) && s.dataIn.isEmpty
  | .streaming n => decide (n < storageSize s.params) && s.dataOutReady == .upTo 0
  | .transmitting (.emit _ :: _) => s.transport == .upTo 0
  | _ => false

/-- The events among a frame's operations. -/
def txEvents : List TxOp → List TxEvent
  | [] => []
  | .toggle :: ops => txEvents ops
  | .emit e :: ops => e :: txEvents ops

/-- The bytes of a frame, in order. -/
def frameBytes : List TxEvent → List Byte
  | [] => []
  | .byte b :: es => b :: frameBytes es
  | _ :: es => frameBytes es

/-- Logical x lies on the run HLINE `x, w` denotes, negative widths extending to the left (R123). -/
def onRun (x w i : Int) : Prop := (normalise x w).1 ≤ i ∧ i ≤ (normalise x w).1 + (normalise x w).2 - 1

/-- The raw pixel is the image of an in-bounds logical point (R81, R83). -/
def imageOf (p : Params) (r : Rotation) (x y : Int) (xr yr : Nat) : Prop :=
  inBounds p r x y = true ∧ rotate p r x y = ((xr : Int), (yr : Int))

/-- `t` is `s` with the pixels of `P`, all on the raw canvas, stored as their colour bits and `DONE` answered;
every other bit of storage and every other field is as it was (R133). -/
def DrawnExactly (s t : State) (code : Code) (P : Nat → Nat → Prop) : Prop :=
  t = { s with storage := t.storage, responses := s.responses ++ [.done] } ∧
  (∀ xr yr, P xr yr → xr < s.params.rawW ∧ yr < s.params.rawH ∧ t.pixel xr yr = colourBit code xr yr) ∧
  ∀ i b, b < 8 → (∀ xr yr, P xr yr → ¬ (i = byteIndex s.params xr yr ∧ b = xr % 8)) →
    (t.byte i).getLsbD b = (s.byte i).getLsbD b

/-- The bytes of a refresh frame as R59 lists them. -/
def refreshBytes (s : State) : List Byte :=
  [vcomByte s.params s.vcom ||| s.params.writeCommand] ++
  ((List.range s.params.rawH).flatMap fun line =>
    [BitVec.ofNat 8 (line + 1)] ++
    ((List.range (rowBytes s.params)).map fun k => s.byte (line * rowBytes s.params + k)) ++ [0x00#8]) ++
  [0x00#8]

/-- The bytes of a clear frame (R60). -/
def clearBytes (s : State) : List Byte :=
  [vcomByte s.params s.vcom ||| s.params.clearCommand, 0x00#8]

/-- A frame's events: its bytes inside the select and transaction brackets (R158). -/
def bracketed (bytes : List Byte) : List TxEvent :=
  [.txBegin, .cs true] ++ bytes.map .byte ++ [.cs false, .txEnd]

/-- Commands executed one after the other (R203), each as `exec` gives it. -/
def execAll : List Instr → State → Answer
  | [], s => .next s
  | i :: is, s => andThen (exec i s) (execAll is)

/-- A run of commands is over: SMDC is idle and the host presents no more (R203). -/
def State.runOver (s : State) : Bool := !s.busy && s.inputs.isEmpty

/-- The observable result of a run (R203). -/
structure RunResult where
  storage : List Byte
  rot : Rotation
  vcom : Bool
  responses : List Response
  events : List TxEvent
deriving DecidableEq, Repr

/-- The result of a run that is over; a command that never completes leaves none (R203). -/
def State.result (s : State) : Option RunResult :=
  if s.runOver then
    some ⟨(List.range (storageSize s.params)).map s.byte, s.rot, s.vcom, s.responses, s.events⟩
  else none

end Sys2Proof.Machine

namespace Sys2Proof

open Sys2Proof.Machine

/-- The five drawing commands of R133. -/
def Instr.draws : Instr → Bool
  | .setpix _ _ _ => true
  | .fillrect _ _ _ _ _ => true
  | .hline _ _ _ _ => true
  | .rawhline _ _ _ _ => true
  | .rawvline _ _ _ _ => true
  | _ => false

/-- The masked writes of a drawing command. -/
def Instr.drawEdits (p : Params) (r : Rotation) : Instr → List Edit
  | .setpix x y code => setpixEdits p r x y code
  | .fillrect x y w h code => fillrectEdits p r x y w h code
  | .hline x y w code => hlineEdits p r x y w code
  | .rawhline x y w code => rawhlineClipped p x y w code
  | .rawvline x y h code => rawvlineClipped p x y h code
  | _ => []

/-- The set `P` of raw pixels of a drawing command (R133): SETPIX the one rotated pixel if in bounds; HLINE R129;
FILLRECT the union over its rows (R121); RAWHLINE and RAWVLINE their run on the raw canvas (R126, R131). -/
def Instr.pixels (p : Params) (r : Rotation) : Instr → Nat → Nat → Prop
  | .setpix x y _, xr, yr => imageOf p r x y xr yr
  | .hline x y w _, xr, yr => ∃ i, onRun x w i ∧ imageOf p r i y xr yr
  | .fillrect x y w h _, xr, yr => ∃ i j, onRun x w i ∧ y ≤ j ∧ j ≤ y + h - 1 ∧ imageOf p r i j xr yr
  | .rawhline x y w _, xr, yr => (yr : Int) = y ∧ x ≤ xr ∧ (xr : Int) ≤ x + w - 1 ∧ xr < p.rawW ∧ yr < p.rawH
  | .rawvline x y h _, xr, yr => (xr : Int) = x ∧ y ≤ yr ∧ (yr : Int) ≤ y + h - 1 ∧ xr < p.rawW ∧ yr < p.rawH
  | _, _, _ => False

end Sys2Proof
end

