-- ==== Sys2Proof/Certificates/Slice0/Obligations.lean ====
section
/-! DEFINITION. The statements for the provers, each a rule of spec/ or drawn from one. -/

open Sys2Proof Sys2Proof.Machine

/-! Encoding. -/

/-- R50 to R52, R54, R55, R63: the decoder reads back every command the encoder writes. -/
def Obligations.DecodeOfEncode : Prop :=
  ∀ i : Instr, i.wf = true → decode (encode i) = .ok i

/-- R51, R52, R54, R55: a decoded command is well formed, its row is the word's opcode, and `rsv` is zero. -/
def Obligations.DecodedIsWellFormed : Prop :=
  ∀ (w : CmdWord) (i : Instr), decode w = .ok i →
    i.wf = true ∧ i.opcode.byte = fieldOp w ∧ fieldRsv w = 0#5

/-- R51, R52, R53: the command and the operands of each row; a field the row marks with a dash has no effect. -/
def Obligations.DecodeReadsRows : Prop :=
  ∀ w : CmdWord, fieldRsv w = 0#5 →
    (fieldOp w = 0x01#8 →
      decode w = .ok (.setpix (fieldA w).toInt (fieldB w).toInt (Code.ofBits (fieldCode w)))) ∧
    (fieldOp w = 0x02#8 → decode w = .ok (.getpix (fieldA w).toInt (fieldB w).toInt)) ∧
    (fieldOp w = 0x03#8 → decode w = .ok .clear) ∧
    (fieldOp w = 0x04#8 → decode w = .ok .snapshot) ∧
    (fieldOp w = 0x05#8 → decode w = .ok .restore) ∧
    (fieldOp w = 0x06#8 → decode w = .ok (.setrot (Rotation.ofBits (w.extractLsb' 48 2)))) ∧
    (fieldOp w = 0x10#8 →
      decode w = .ok (.fillrect (fieldA w).toInt (fieldB w).toInt (fieldC w).toInt (fieldD w).toInt
        (Code.ofBits (fieldCode w)))) ∧
    (fieldOp w = 0x11#8 →
      decode w = .ok (.hline (fieldA w).toInt (fieldB w).toInt (fieldC w).toInt (Code.ofBits (fieldCode w)))) ∧
    (fieldOp w = 0x12#8 →
      decode w = .ok (.rawhline (fieldA w).toInt (fieldB w).toInt (fieldC w).toInt (Code.ofBits (fieldCode w)))) ∧
    (fieldOp w = 0x13#8 →
      decode w = .ok (.rawvline (fieldA w).toInt (fieldB w).toInt (fieldC w).toInt (Code.ofBits (fieldCode w)))) ∧
    (fieldOp w = 0x20#8 → decode w = .ok .refresh) ∧
    (fieldOp w = 0x21#8 → decode w = .ok .cleartx)

/-- R54, R55, R56: a word is refused for its reserved bits exactly when one is set, whatever its opcode; with none set,
for its opcode exactly when that is one of the 244 illegal values; and no other word is refused. -/
def Obligations.DecodeRejects : Prop :=
  (∀ w : CmdWord, decode w = .error .reservedBits ↔ fieldRsv w ≠ 0#5) ∧
  (∀ w : CmdWord, fieldRsv w = 0#5 →
    (decode w = .error .unknownOpcode ↔
      (fieldOp w).toNat ∉ [0x01, 0x02, 0x03, 0x04, 0x05, 0x06, 0x10, 0x11, 0x12, 0x13, 0x20, 0x21])) ∧
  ((List.range 256).filter fun n => (Opcode.ofByte (BitVec.ofNat 8 n)).isNone).length = 244

/-- R50 to R52 on words written out by hand from the encoding. -/
def Obligations.SampleWordsDecode : Prop :=
  decode 0x0200FFFF000500000000#80 = .ok (.getpix (-1) 5) ∧
  decode 0x10070002000100140002#80 = .ok (.fillrect 2 1 20 2 .diagr) ∧
  decode 0x1100000C0001FFF60000#80 = .ok (.hline 12 1 (-10) .black) ∧
  decode 0x0600FFFE000000000000#80 = .ok (.setrot .rot2) ∧
  decode 0x20000000000000000000#80 = .ok .refresh ∧
  decode 0x01080000000000000000#80 = .error .reservedBits ∧
  decode 0x00000000000000000000#80 = .error .unknownOpcode

/-! The step. -/

/-- R13, R17, R178: an idle SMDC takes the next word from the command port and executes the command it decodes
to. -/
def Obligations.StepRunsDecoded : Prop :=
  ∀ (s : State) (w : CmdWord) (rest : List HostInput) (i : Instr),
    s.params.wf = true → s.busy = false → s.inputs = .command w :: rest → decode w = .ok i →
    step s = exec i { s with inputs := rest }

/-- R56: a word with reserved bits set or with an opcode outside the twelve is taken, answers ILLEGAL and changes
nothing else, and SMDC stays idle, ready for the next word. -/
def Obligations.StepAnswersIllegal : Prop :=
  ∀ (s : State) (w : CmdWord) (rest : List HostInput),
    s.params.wf = true → s.busy = false → s.inputs = .command w :: rest →
    fieldRsv w ≠ 0#5 ∨ (fieldOp w).toNat ∉
      [0x01, 0x02, 0x03, 0x04, 0x05, 0x06, 0x10, 0x11, 0x12, 0x13, 0x20, 0x21] →
    ∃ t, step s = .next t ∧ t.cmdReady = true ∧
      t = { s with inputs := rest, responses := s.responses ++ [.illegal] }

/-- R204: with nothing presented and no command in progress, nothing happens. -/
def Obligations.StepIdleKeepsState : Prop :=
  ∀ s : State, s.params.wf = true → s.busy = false → s.inputs = [] → step s = .next s

/-- R17, R45, R178: a busy SMDC accepts no input: what the host presents stays presented, whether the command
in progress completes in the step or not (for a reset, the model's choice of its moment, log entry 14). -/
def Obligations.BusyAcceptsNothing : Prop :=
  ∀ s t : State, s.busy = true → step s = .next t → t.inputs = s.inputs

/-- R45, R178: handing a command to a busy SMDC has no meaning. -/
def Obligations.BusyRefusesCommand : Prop :=
  ∀ (i : Instr) (s : State), s.busy = true → exec i s = .refused .commandWhileBusy

/-- R7: no step is taken on parameters outside the constraints of R5 (that `step` is where the model refuses is
the model's choice, log entry 3). -/
def Obligations.StepRefusesParameters : Prop :=
  ∀ s : State, s.params.wf = false → step s = .refused .parametersOutOfRange

/-! Reset. -/

/-- R23, R190: the reset values, for every display and every contents of storage. -/
def Obligations.ResetValues : Prop :=
  ∀ (p : Params) (contents : List Byte),
    let s := State.resetWith p contents
    s.params = p ∧ s.rot = .rot0 ∧ s.vcom = p.vcomReset ∧ s.busy = false ∧ s.selectHigh = false ∧
    s.busOpen = false ∧ s.widthOut = p.rawW ∧ s.heightOut = p.rawH ∧
    s.responses = [] ∧ s.dataOut = [] ∧ s.events = [] ∧
    ∀ i (b : Byte), i < storageSize p → contents[i]? = some b → s.byte i = b

/-- R190: the reset input on an idle SMDC gives the reset values and emits no event and no response (that the
ports keep what they have delivered is the model's choice, log entry 14). -/
def Obligations.ResetFromIdle : Prop :=
  ∀ (s : State) (contents : List Byte) (rest : List HostInput),
    s.params.wf = true → s.busy = false → s.inputs = .reset contents :: rest →
    ∃ t, step s = .next t ∧
      t = { s with storage := t.storage, rot := .rot0, vcom := s.params.vcomReset, selectHigh := false,
                   busOpen := false, inputs := rest } ∧
      ∀ i (b : Byte), i < storageSize s.params → contents[i]? = some b → t.byte i = b

/-- R193, E6 of R170: a reset asserted while the command in progress cannot go on has no meaning, whether a frame
waits for the Transport, a RESTORE for a byte or a SNAPSHOT for its byte to be taken (the choice of the moment is the
model's, log entry 14). -/
def Obligations.ResetWhileStalledRefused : Prop :=
  ∀ (s : State) (contents : List Byte) (rest : List HostInput),
    s.params.wf = true → s.stalled = true → s.inputs = .reset contents :: rest →
    step s = .refused .resetWhileBusy

/-- The invariant holds after reset of every legal display, whatever its storage holds. -/
def Obligations.ResetMeetsInvariant : Prop :=
  ∀ (p : Params) (contents : List Byte), p.wf = true → (State.resetWith p contents).Inv

/-- R5, R11, R22, R47, R158: every step keeps the invariant: parameters legal, storage canonical and only at
indexes below N, the select line and the bus at the levels of the one nesting of the frame in progress, its one toggle
made or still to come. -/
def Obligations.StepKeepsInvariant : Prop :=
  ∀ s t : State, s.Inv → step s = .next t → t.Inv

/-- R47, R171: no access outside storage occurs and no step ends in a fault, from any state. -/
def Obligations.NoFault : Prop :=
  (∀ (i : Instr) (s : State) (f : Fault), exec i s ≠ .fault f) ∧ ∀ (s : State) (f : Fault), step s ≠ .fault f

/-! BitFrameBuffer. -/

/-- R80 to R82: SETPIX in bounds stores the colour bit of the raw position at the rotated pixel and changes
nothing else; out of bounds it changes nothing; it answers DONE. -/
def Obligations.SetpixStoresOnePixel : Prop :=
  ∀ (s : State) (x y : Int) (code : Code), s.busy = false → s.storage.wf = true →
    (inBounds s.params s.rot x y = true →
      ∃ t xr yr, exec (.setpix x y code) s = .next t ∧ imageOf s.params s.rot x y xr yr ∧
        xr < s.params.rawW ∧ yr < s.params.rawH ∧
        t = { s with storage := t.storage, responses := s.responses ++ [.done] } ∧
        ∀ i b, b < 8 → (t.byte i).getLsbD b =
          if i = xr / 8 + yr * rowBytes s.params ∧ b = xr % 8 then colourBit code xr yr
          else (s.byte i).getLsbD b) ∧
    (inBounds s.params s.rot x y = false →
      exec (.setpix x y code) s = .next { s with responses := s.responses ++ [.done] })

/-- R84: GETPIX answers the stored bit of the rotated pixel, `OOB_READ` out of bounds, and changes nothing. -/
def Obligations.GetpixReadsOnePixel : Prop :=
  ∀ (s : State) (x y : Int), s.busy = false →
    (inBounds s.params s.rot x y = true →
      ∃ xr yr, imageOf s.params s.rot x y xr yr ∧
        exec (.getpix x y) s = .next { s with
          responses := s.responses ++ [.pixel ((s.byte (xr / 8 + yr * rowBytes s.params)).getLsbD (xr % 8))] }) ∧
    (inBounds s.params s.rot x y = false →
      exec (.getpix x y) s = .next { s with responses := s.responses ++ [.pixel s.params.oobRead] })

/-- R84 (SMD §8): GETPIX after SETPIX of the same in-bounds point answers the colour bit of its raw pixel. -/
def Obligations.GetpixAfterSetpix : Prop :=
  ∀ (s t : State) (x y : Int) (code : Code) (xr yr : Nat), s.storage.wf = true →
    imageOf s.params s.rot x y xr yr → exec (.setpix x y code) s = .next t →
    exec (.getpix x y) t = .next { t with responses := t.responses ++ [.pixel (colourBit code xr yr)] }

/-- R85: CLEAR sets every byte of storage to 0xFF and changes nothing else. -/
def Obligations.ClearWhitensStorage : Prop :=
  ∀ s : State, s.busy = false → s.storage.wf = true →
    ∃ t, exec .clear s = .next t ∧
      t = { s with storage := t.storage, responses := s.responses ++ [.done] } ∧
      ∀ i, t.byte i = if i < storageSize s.params then 0xFF#8 else s.byte i

/-- R87, R88: SNAPSHOT streams the N bytes of storage in ascending index and answers DATA of them; if the host
takes only `n < N`, it has sent the first `n` and stays busy without a response. -/
def Obligations.SnapshotStreamsStorage : Prop :=
  ∀ s : State, s.busy = false →
    (s.dataOutReady.covers (storageSize s.params) = true →
      exec .snapshot s = .next { s with
        dataOut := s.dataOut ++ (List.range (storageSize s.params)).map s.byte
        dataOutReady := s.dataOutReady.spend (storageSize s.params)
        responses := s.responses ++ [.data ((List.range (storageSize s.params)).map s.byte)] }) ∧
    ∀ n, n < storageSize s.params → s.dataOutReady = .upTo n →
      exec .snapshot s = .next { s with
        dataOut := s.dataOut ++ (List.range n).map s.byte
        dataOutReady := .upTo 0
        seq := .streaming n }

/-- R58, R87, R89: RESTORE consumes exactly N data-in bytes into storage in ascending index; with fewer offered it
has stored those and stays busy without a response. -/
def Obligations.RestoreLoadsStorage : Prop :=
  ∀ s : State, s.busy = false → s.storage.wf = true →
    (storageSize s.params ≤ s.dataIn.length →
      ∃ t, exec .restore s = .next t ∧
        t = { s with storage := t.storage, dataIn := s.dataIn.drop (storageSize s.params),
                     responses := s.responses ++ [.done] } ∧
        ∀ i, t.byte i = if i < storageSize s.params then s.dataIn.getD i 0x00#8 else s.byte i) ∧
    (s.dataIn.length < storageSize s.params →
      ∃ t, exec .restore s = .next t ∧
        t = { s with storage := t.storage, dataIn := [], seq := .restoring s.dataIn.length } ∧
        ∀ i, t.byte i = if i < s.dataIn.length then s.dataIn.getD i 0x00#8 else s.byte i)

/-- R89: a RESTORE that waits at byte `n` completes in the step that finds the rest offered; offered less, it stores
what is offered at the indexes from `n` on and waits for what is then missing, without a response.
(That the command also completes with a reset presented, which stays presented, is the model's choice of the moment of
a reset, log entry 14: R193 gives a reset of a busy SMDC no meaning.) -/
def Obligations.RestoreCompletesLater : Prop :=
  ∀ (s : State) (n : Nat), s.params.wf = true → s.storage.wf = true → s.seq = .restoring n →
    n < storageSize s.params →
    (storageSize s.params - n ≤ s.dataIn.length →
      ∃ t, step s = .next t ∧
        t = { s with storage := t.storage, dataIn := s.dataIn.drop (storageSize s.params - n), seq := .idle,
                     responses := s.responses ++ [.done] } ∧
        ∀ i, t.byte i =
          if n ≤ i ∧ i < storageSize s.params then s.dataIn.getD (i - n) 0x00#8 else s.byte i) ∧
    (s.dataIn.length < storageSize s.params - n → s.resetAsserted = false →
      ∃ t, step s = .next t ∧
        t = { s with storage := t.storage, dataIn := [], seq := .restoring (n + s.dataIn.length) } ∧
        ∀ i, t.byte i = if n ≤ i ∧ i < n + s.dataIn.length then s.dataIn.getD (i - n) 0x00#8 else s.byte i)

/-- R88, R204: a SNAPSHOT whose host reads slowly, waiting at byte `n`, sends the bytes `n` to `N-1` and answers DATA
of all `N` in the step that finds the rest taken; if only `k` more are taken, it sends those and waits at byte `n + k`,
without a response. (That the command also completes with a reset presented, which stays presented, is the model's
choice of the moment of a reset, log entry 14: R193 gives a reset of a busy SMDC no meaning.) -/
def Obligations.SnapshotCompletesLater : Prop :=
  ∀ (s : State) (n : Nat), s.params.wf = true → s.seq = .streaming n → n < storageSize s.params →
    (s.dataOutReady.covers (storageSize s.params - n) = true →
      step s = .next { s with
        dataOut := s.dataOut ++ (List.range' n (storageSize s.params - n)).map s.byte
        dataOutReady := s.dataOutReady.spend (storageSize s.params - n)
        seq := .idle
        responses := s.responses ++ [.data ((List.range (storageSize s.params)).map s.byte)] }) ∧
    ∀ k, k < storageSize s.params - n → s.dataOutReady = .upTo k → s.resetAsserted = false →
      step s = .next { s with
        dataOut := s.dataOut ++ (List.range' n k).map s.byte
        dataOutReady := .upTo 0
        seq := .streaming (n + k) }

/-- R89: a RESTORE of the bytes a SNAPSHOT gave puts storage back exactly, whatever was drawn between and
whatever the rotations. -/
def Obligations.RestoreOfSnapshot : Prop :=
  ∀ (s s' t t' : State) (bytes more : List Byte), s.Inv → t.Inv → t.params = s.params →
    exec .snapshot s = .next s' → s'.responses = s.responses ++ [.data bytes] →
    t.dataIn = bytes ++ more → exec .restore t = .next t' → t'.storage = s.storage

/-- R90: a SETROT word carries the two low bits of field `a`; the command writes them to the rotation and changes
nothing else, and the geometry wires follow at once. -/
def Obligations.SetrotWritesRotation : Prop :=
  (∀ w : CmdWord, fieldRsv w = 0#5 → fieldOp w = 0x06#8 →
    decode w = .ok (.setrot (Rotation.ofBits (w.extractLsb' 48 2)))) ∧
  ∀ (s : State) (r : Rotation), s.busy = false →
    ∃ t, exec (.setrot r) s = .next t ∧
      t = { s with rot := r, responses := s.responses ++ [.done] } ∧ t.rotOut = r ∧
      (r = .rot0 ∨ r = .rot2 → t.widthOut = s.params.rawW ∧ t.heightOut = s.params.rawH) ∧
      (r = .rot1 ∨ r = .rot3 → t.widthOut = s.params.rawH ∧ t.heightOut = s.params.rawW)

/-- R83: `rotate` is a bijection from the in-bounds logical points onto the raw points, with the inverse of the
table. -/
def Obligations.RotateIsBijection : Prop :=
  ∀ (p : Params) (r : Rotation),
    (∀ x y : Int, inBounds p r x y = true →
      0 ≤ (rotate p r x y).1 ∧ (rotate p r x y).1 < p.rawW ∧
      0 ≤ (rotate p r x y).2 ∧ (rotate p r x y).2 < p.rawH ∧
      unrotate p r (rotate p r x y).1 (rotate p r x y).2 = (x, y)) ∧
    ∀ xr yr : Int, 0 ≤ xr → xr < p.rawW → 0 ≤ yr → yr < p.rawH →
      inBounds p r (unrotate p r xr yr).1 (unrotate p r xr yr).2 = true ∧
      rotate p r (unrotate p r xr yr).1 (unrotate p r xr yr).2 = (xr, yr)

/-- R34: the masked write of a bit is the OR with the mask for 1, the AND with its complement for 0, of the one
byte at `byte_index`. -/
def Obligations.BitWriteIsOrAnd : Prop :=
  ∀ (m : Memory) (p : Params) (xr yr : Nat) (b : Bool) (i : Nat), m.wf = true →
    (m.edit (bitEdit p xr yr b)).read i =
      if i = byteIndex p xr yr then
        (if b then m.read i ||| bitMask xr else m.read i &&& clrMask xr)
      else m.read i

/-! Dither patterns. -/

/-- R109: the closed form of the fill byte. -/
def Obligations.FillByteClosedForm : Prop :=
  ∀ (code : Code) (yr k : Nat), fillByte code yr k = fillByteClosed code yr k

/-- R110: each texture repeats with its period in both directions. -/
def Obligations.TextureIsPeriodic : Prop :=
  ∀ (code : Code) (xr yr : Nat), colourBit code xr yr = colourBit code (xr % period code) (yr % period code)

/-- R103: code 4 is the complement of code 3 at every position. -/
def Obligations.LightIsComplementOfDark : Prop :=
  ∀ xr yr : Nat, colourBit .light xr yr = !colourBit .dark xr yr

/-! Rasterizer. -/

/-- R127, R130: the byte-level writer stores the colour bit of each pixel of the run and keeps every other bit of
storage. -/
def Obligations.RowWriterBits : Prop :=
  ∀ (m : Memory) (p : Params) (code : Code) (x y w : Nat), m.wf = true →
    y < p.rawH → 1 ≤ w → x + w - 1 < p.rawW →
    ∀ j b, b < 8 → ((m.edits (rawHlineEdits p code x y w)).read j).getLsbD b =
      if y * rowBytes p ≤ j ∧ j < y * rowBytes p + rowBytes p ∧ x ≤ 8 * (j - y * rowBytes p) + b ∧
          8 * (j - y * rowBytes p) + b ≤ x + w - 1 then
        colourBit code (8 * (j - y * rowBytes p) + b) y
      else (m.read j).getLsbD b

/-- R132: the column writer stores the colour bit of each pixel of the column run and keeps every other bit. -/
def Obligations.ColumnWriterBits : Prop :=
  ∀ (m : Memory) (p : Params) (code : Code) (x y h : Nat), m.wf = true →
    x < p.rawW → 1 ≤ h → y + h - 1 < p.rawH →
    ∀ j b, b < 8 →
      (∀ yy, y ≤ yy → yy ≤ y + h - 1 → j = x / 8 + yy * rowBytes p → b = x % 8 →
        ((m.edits (rawVlineEdits p code x y h)).read j).getLsbD b = colourBit code x yy) ∧
      ((∀ yy, y ≤ yy → yy ≤ y + h - 1 → ¬ (j = x / 8 + yy * rowBytes p ∧ b = x % 8)) →
        ((m.edits (rawVlineEdits p code x y h)).read j).getLsbD b = (m.read j).getLsbD b)

/-- R122 to R125, R129, R133: HLINE draws the in-bounds pixels of its run, and nothing else. -/
def Obligations.HlineDrawsRun : Prop :=
  ∀ (s : State) (x y w : Int) (code : Code), s.busy = false → s.storage.wf = true →
    ∃ t, exec (.hline x y w code) s = .next t ∧
      DrawnExactly s t code (Instr.pixels s.params s.rot (.hline x y w code))

/-- R121, R133: FILLRECT draws the in-bounds pixels of its rectangle, and nothing else; `h ≤ 0` and `w = 0` draw
nothing, `w < 0` extends to the left. -/
def Obligations.FillrectDrawsRectangle : Prop :=
  ∀ (s : State) (x y w h : Int) (code : Code), s.busy = false → s.storage.wf = true →
    ∃ t, exec (.fillrect x y w h code) s = .next t ∧
      DrawnExactly s t code (Instr.pixels s.params s.rot (.fillrect x y w h code))

/-- R126, R133: RAWHLINE draws its run clipped to the raw canvas whatever the rotation, and nothing else. -/
def Obligations.RawhlineDrawsRun : Prop :=
  ∀ (s : State) (x y w : Int) (code : Code), s.busy = false → s.storage.wf = true →
    ∃ t, exec (.rawhline x y w code) s = .next t ∧
      DrawnExactly s t code fun xr yr => (yr : Int) = y ∧ x ≤ xr ∧ (xr : Int) ≤ x + w - 1 ∧
        xr < s.params.rawW ∧ yr < s.params.rawH

/-- R131, R133: RAWVLINE draws its column run clipped to the raw canvas whatever the rotation, and nothing else. -/
def Obligations.RawvlineDrawsRun : Prop :=
  ∀ (s : State) (x y h : Int) (code : Code), s.busy = false → s.storage.wf = true →
    ∃ t, exec (.rawvline x y h code) s = .next t ∧
      DrawnExactly s t code fun xr yr => (xr : Int) = x ∧ y ≤ yr ∧ (yr : Int) ≤ y + h - 1 ∧
        xr < s.params.rawW ∧ yr < s.params.rawH

/-- R129: HLINE has the same effect on storage as SETPIX of every point of its run, in any order. -/
def Obligations.HlineEqualsSetpixes : Prop :=
  ∀ (m : Memory) (p : Params) (r : Rotation) (x y w : Int) (code : Code) (order : List Int), m.wf = true →
    order.Perm ((List.range (normalise x w).2.toNat).map fun j => (normalise x w).1 + j) →
    m.edits (hlineEdits p r x y w code) = m.edits (order.flatMap fun i => setpixEdits p r i y code)

/-- R121: FILLRECT is `h` successive HLINEs, one per row; the rows the model skips write nothing. -/
def Obligations.FillrectIsSuccessiveHlines : Prop :=
  ∀ (p : Params) (r : Rotation) (x y w h : Int) (code : Code),
    fillrectEdits p r x y w h code =
      (List.range h.toNat).flatMap fun j => hlineEdits p r x (y + j) w code

/-- R123 (SMD §8): a negative width draws as the equivalent normalised call. -/
def Obligations.HlineNegativeWidth : Prop :=
  ∀ (s : State) (x y w : Int) (code : Code), w < 0 →
    exec (.hline x y w code) s = exec (.hline (x + w + 1) y (-w) code) s

/-- R37: no drawing command changes a padding bit, nor a byte outside storage. -/
def Obligations.DrawingKeepsPadding : Prop :=
  ∀ (i : Instr) (s t : State), i.draws = true → s.storage.wf = true → exec i s = .next t →
    (∀ y k b, y < s.params.rawH → k < rowBytes s.params → b < 8 → s.params.rawW ≤ 8 * k + b →
      (t.byte (y * rowBytes s.params + k)).getLsbD b = (s.byte (y * rowBytes s.params + k)).getLsbD b) ∧
    ∀ j, storageSize s.params ≤ j → t.byte j = s.byte j

/-- R199: issuing the same drawing command twice leaves the storage that issuing it once leaves. -/
def Obligations.RedrawIsStable : Prop :=
  ∀ (i : Instr) (s t u : State), i.draws = true → s.storage.wf = true →
    exec i s = .next t → exec i t = .next u → u.storage = t.storage

/-! ProtocolEncoder. -/

/-- R59, R150, R152, R158: REFRESH sends the refresh frame of the storage and of the bias flag before the toggle,
bracketed, toggles the flag once and answers DONE; it changes no storage and no rotation. The premise is the one
R157 asks for: the Transport accepts every event of the frame. -/
def Obligations.RefreshSendsFrame : Prop :=
  ∀ s : State, s.busy = false → s.transport.covers (6 + s.params.rawH * (rowBytes s.params + 2)) = true →
    exec .refresh s = .next { s with
      vcom := !s.vcom
      selectHigh := false
      busOpen := false
      events := s.events ++ bracketed (refreshBytes s)
      transport := s.transport.spend (6 + s.params.rawH * (rowBytes s.params + 2))
      responses := s.responses ++ [.done] }

/-- R59 (SMD §6): a refresh sends `2 + RAW_H * (ROW_BYTES + 2)` bytes. -/
def Obligations.RefreshByteCount : Prop :=
  ∀ s : State, (frameBytes (txEvents (refreshOps s))).length = 2 + s.params.rawH * (rowBytes s.params + 2)

/-- R60, R153, R158: CLEARTX whitens storage, sends the clear frame, bracketed, toggles the bias flag once and
answers DONE; it does not touch the rotation. Premise as in RefreshSendsFrame. -/
def Obligations.CleartxClearsAndSends : Prop :=
  ∀ s : State, s.busy = false → s.storage.wf = true → s.transport.covers 6 = true →
    ∃ t, exec .cleartx s = .next t ∧
      t = { s with
        storage := t.storage
        vcom := !s.vcom
        selectHigh := false
        busOpen := false
        events := s.events ++ bracketed (clearBytes s)
        transport := s.transport.spend 6
        responses := s.responses ++ [.done] } ∧
      ∀ i, t.byte i = if i < storageSize s.params then 0xFF#8 else s.byte i

/-- R157: when the Transport takes only `n` events of a refresh frame, those are emitted, the command stays busy
and answers nothing, and the bias flag is toggled if the control byte, the third event, was accepted. -/
def Obligations.RefreshStalls : Prop :=
  ∀ (s : State) (n : Nat), s.busy = false → s.transport = .upTo n →
    n < 6 + s.params.rawH * (rowBytes s.params + 2) →
    ∃ t, exec .refresh s = .next t ∧ t.busy = true ∧ t.responses = s.responses ∧ t.storage = s.storage ∧
      t.rot = s.rot ∧ t.events = s.events ++ (bracketed (refreshBytes s)).take n ∧
      t.vcom = (if 3 ≤ n then !s.vcom else s.vcom) ∧ t.transport = .upTo 0

/-- R157: when the Transport takes only `n` events of a clear frame, storage is white already, those are emitted,
the command stays busy and answers nothing, and the bias flag is toggled if both bytes were accepted. -/
def Obligations.CleartxStalls : Prop :=
  ∀ (s : State) (n : Nat), s.busy = false → s.storage.wf = true → s.transport = .upTo n → n < 6 →
    ∃ t, exec .cleartx s = .next t ∧ t.busy = true ∧ t.responses = s.responses ∧
      (∀ i, i < storageSize s.params → t.byte i = 0xFF#8) ∧
      t.rot = s.rot ∧ t.events = s.events ++ (bracketed (clearBytes s)).take n ∧
      t.vcom = (if 4 ≤ n then !s.vcom else s.vcom) ∧ t.transport = .upTo 0

/-- R157, E6 of R170: a command whose port gives it nothing stays as it is, step after step, answers nothing and
accepts no command, whether it is a frame, a RESTORE or a SNAPSHOT. -/
def Obligations.StalledStaysStuck : Prop :=
  ∀ s : State, s.params.wf = true → s.stalled = true → s.resetAsserted = false →
    s.busy = true ∧ step s = .next s

/-- R150, R155, R157: a REFRESH the Transport held up after `n` events goes on, once the Transport accepts events again
(every one, or some more), exactly as if those `n` and these had been accepted without a stall; once it completes, the
bias flag has toggled exactly once across the stall. (That the command also completes with a reset presented, which
stays presented, is the model's choice of the moment of a reset, log entry 14: R193 gives a reset of a busy SMDC no
meaning.) -/
def Obligations.StalledRefreshResumes : Prop :=
  ∀ (s t u : State) (n : Nat) (r : Readiness), s.params.wf = true → s.transport = .upTo n →
    n < 6 + s.params.rawH * (rowBytes s.params + 2) → exec .refresh s = .next t →
    exec .refresh (s.withTransport (r.after n)) = .next u → (u.busy = true → s.resetAsserted = false) →
    step (t.withTransport r) = .next u ∧ (u.busy = false → u.vcom = !s.vcom)

/-- R150, R155, R157: a CLEARTX the Transport held up after `n` events goes on, once the Transport accepts events again
(every one, or some more), exactly as if those `n` and these had been accepted without a stall; once it completes, the
bias flag has toggled exactly once across the stall. (That the command also completes with a reset presented, which
stays presented, is the model's choice of the moment of a reset, log entry 14: R193 gives a reset of a busy SMDC no
meaning.) -/
def Obligations.StalledCleartxResumes : Prop :=
  ∀ (s t u : State) (n : Nat) (r : Readiness), s.params.wf = true → s.transport = .upTo n →
    n < 6 → exec .cleartx s = .next t →
    exec .cleartx (s.withTransport (r.after n)) = .next u → (u.busy = true → s.resetAsserted = false) →
    step (t.withTransport r) = .next u ∧ (u.busy = false → u.vcom = !s.vcom)

/-- R151, R152, R153, R158: each frame is one nesting `TXBEGIN`, `CS(1)`, the frame's bytes, `CS(0)`, `TXEND`, with
exactly one toggle of the bias flag between the select edges; and where the invariant holds the select line is never
HIGH outside a transaction. (On which side of the select edges the transaction begins and ends is the spec's decision from
general knowledge, D14: log entry 17.) -/
def Obligations.FramesAreBracketed : Prop :=
  (∀ (s : State) (ops : List TxOp), ops = refreshOps s ∨ ops = clearOps s →
    ∃ mid, ops = [.emit .txBegin, .emit (.cs true)] ++ mid ++ [.emit (.cs false), .emit .txEnd] ∧
      (∀ op ∈ mid, op = .toggle ∨ ∃ b, op = .emit (.byte b)) ∧ mid.count .toggle = 1) ∧
  ∀ s : State, s.Inv → s.selectHigh = true → s.busOpen = true

/-! Rules over all commands. -/

/-- R155: the word a step takes toggles the bias flag exactly once if it is REFRESH or CLEARTX and completes; no
other word, legal or not, changes it. -/
def Obligations.VcomTogglesOncePerFrame : Prop :=
  ∀ (s t : State) (w : CmdWord) (rest : List HostInput),
    s.params.wf = true → s.busy = false → s.inputs = .command w :: rest → step s = .next t →
    (decode w = .ok .refresh ∨ decode w = .ok .cleartx → t.busy = false → t.vcom = !s.vcom) ∧
    (decode w ≠ .ok .refresh → decode w ≠ .ok .cleartx → t.vcom = s.vcom)

/-- R154: after any commands the bias flag differs from its start exactly when an odd number of frames was sent;
from reset, it is `VCOM_RESET ^ (n mod 2)`. -/
def Obligations.VcomAfterFrames : Prop :=
  (∀ (is : List Instr) (s t : State), s.transport = .always → execAll is s = .next t →
    t.vcom = (s.vcom ^^ decide ((is.filter fun i => i == .refresh || i == .cleartx).length % 2 = 1))) ∧
  ∀ (p : Params) (contents : List Byte) (is : List Instr) (t : State),
    execAll is (State.resetWith p contents) = .next t →
    t.vcom = (p.vcomReset ^^ decide ((is.filter fun i => i == .refresh || i == .cleartx).length % 2 = 1))

/-- R2, R194, R155: no command but REFRESH and CLEARTX emits a transport event, moves the select line or the bus,
or touches the bias flag, whether it completes or waits. -/
def Obligations.OnlyEncTransmits : Prop :=
  ∀ (i : Instr) (s t : State), i ≠ .refresh → i ≠ .cleartx → exec i s = .next t →
    t.events = s.events ∧ t.selectHigh = s.selectHigh ∧ t.busOpen = s.busOpen ∧ t.vcom = s.vcom ∧
    t.transport = s.transport

/-- R10, R14, R5: only SETROT writes the rotation, no command writes the parameters, and no command presents or
takes a host input. -/
def Obligations.OnlySetrotRotates : Prop :=
  ∀ (i : Instr) (s t : State), exec i s = .next t →
    t.params = s.params ∧ t.inputs = s.inputs ∧ ((∀ r, i ≠ .setrot r) → t.rot = s.rot)

/-- R10: a command outside the writers R10 lists for storage leaves all of storage as it was. -/
def Obligations.ReadersKeepStorage : Prop :=
  ∀ (i : Instr) (s t : State),
    i = .snapshot ∨ i = .refresh ∨ (∃ x y, i = .getpix x y) ∨ (∃ r, i = .setrot r) →
    exec i s = .next t → t.storage = s.storage

/-- R18, R19, R88, R89: no command but RESTORE takes data-in bytes, and none but SNAPSHOT gives data-out bytes. -/
def Obligations.DataPortsHaveOneUser : Prop :=
  ∀ (i : Instr) (s t : State), exec i s = .next t →
    (i ≠ .restore → t.dataIn = s.dataIn) ∧
    (i ≠ .snapshot → t.dataOut = s.dataOut ∧ t.dataOutReady = s.dataOutReady)

/-- R19: a command gives exactly one response when it completes and none before: PIXEL for GETPIX, DATA for
SNAPSHOT, DONE for every other. -/
def Obligations.OneResponsePerCommand : Prop :=
  ∀ (i : Instr) (s t : State), exec i s = .next t →
    (t.busy = true → t.responses = s.responses) ∧
    (t.busy = false → ∃ r, t.responses = s.responses ++ [r] ∧
      ((∃ x y, i = .getpix x y) → ∃ b, r = .pixel b) ∧
      (i = .snapshot → ∃ bytes, r = .data bytes) ∧
      ((∀ x y, i ≠ .getpix x y) → i ≠ .snapshot → r = .done))
end

