-- ==== Sys2Proof/Laws/Memory.lean ====
section
/-! SUPPORT. Storage: what a read sees after writes, and that every operation keeps the canonical form. -/

namespace Sys2Proof.Machine

open Sys2Proof

theorem Memory.wfFrom_mono {lo lo' : Nat} {m : Memory} (hle : lo' ≤ lo) (h : Memory.wfFrom lo m = true) :
    Memory.wfFrom lo' m = true := by
  cases m with
  | nil => rfl
  | cons c m =>
    simp only [Memory.wfFrom, Bool.and_eq_true, decide_eq_true_eq] at h ⊢
    exact ⟨⟨hle.trans h.1.1, h.1.2⟩, h.2⟩

/-- Below the first listed address everything is unlisted. -/
theorem Memory.read_below {lo i : Nat} {m : Memory} (h : Memory.wfFrom lo m = true) (hi : i < lo) :
    m.read i = Memory.unlisted := by
  cases m with
  | nil => rfl
  | cons c m =>
    simp only [Memory.wfFrom, Bool.and_eq_true, decide_eq_true_eq] at h
    have : ¬ c.1 < i := by omega
    have : ¬ c.1 = i := by omega
    simp [Memory.read, *]

theorem Memory.put_wfFrom {lo i : Nat} {m : Memory} (v : Byte) (hlo : lo ≤ i)
    (h : Memory.wfFrom (i + 1) m = true) : Memory.wfFrom lo (Memory.put i v m) = true := by
  unfold Memory.put
  split
  · exact Memory.wfFrom_mono (by omega) h
  · simp [Memory.wfFrom, *]

theorem Memory.write_wfFrom {lo i : Nat} {m : Memory} (v : Byte) (hlo : lo ≤ i)
    (h : Memory.wfFrom lo m = true) : Memory.wfFrom lo (m.write i v) = true := by
  induction m generalizing lo with
  | nil => exact Memory.put_wfFrom v hlo rfl
  | cons c m ih =>
    obtain ⟨a, b⟩ := c
    have h' := h
    simp only [Memory.wfFrom, Bool.and_eq_true, decide_eq_true_eq] at h
    simp only [Memory.write]
    split
    · simp only [Memory.wfFrom, Bool.and_eq_true, decide_eq_true_eq]
      exact ⟨h.1, ih (by omega) h.2⟩
    · split
      · subst i
        exact Memory.put_wfFrom v hlo h.2
      · refine Memory.put_wfFrom v hlo ?_
        simp only [Memory.wfFrom, Bool.and_eq_true, decide_eq_true_eq]
        exact ⟨⟨by omega, h.1.2⟩, h.2⟩

/-- A write keeps the canonical form. -/
theorem Memory.write_wf {m : Memory} (i : Nat) (v : Byte) (h : m.wf = true) : (m.write i v).wf = true :=
  Memory.write_wfFrom v (Nat.zero_le i) h

theorem Memory.read_put {i : Nat} {m : Memory} (v : Byte) (j : Nat) (h : Memory.wfFrom (i + 1) m = true) :
    (Memory.put i v m).read j = if j = i then v else m.read j := by
  unfold Memory.put
  by_cases hv : v = Memory.unlisted
  · rw [if_pos hv]
    split
    · subst j
      rw [Memory.read_below h (by omega), hv]
    · rfl
  · simp only [hv, if_false, Memory.read]
    by_cases hj : j = i
    · simp [hj]
    · simp only [hj, if_false]
      split
      · rfl
      · rw [if_neg (by omega), Memory.read_below h (by omega)]

theorem Memory.read_write_from {lo i : Nat} {m : Memory} (v : Byte) (j : Nat)
    (h : Memory.wfFrom lo m = true) : (m.write i v).read j = if j = i then v else m.read j := by
  induction m generalizing lo with
  | nil => exact Memory.read_put v j rfl
  | cons c m ih =>
    obtain ⟨a, b⟩ := c
    have h' := h
    simp only [Memory.wfFrom, Bool.and_eq_true, decide_eq_true_eq] at h
    simp only [Memory.write]
    by_cases h1 : a < i
    · simp only [h1, if_true, Memory.read, ih h.2]
      by_cases hj : j = i
      · subst j
        simp [h1]
      · simp [hj]
    · rw [if_neg h1]
      by_cases h2 : a = i
      · subst h2
        rw [if_pos rfl, Memory.read_put v j h.2]
        by_cases hj : j = a
        · simp [hj]
        · simp only [hj, if_false, Memory.read]
          split
          · rfl
          · rw [if_neg (by omega), Memory.read_below h.2 (by omega)]
      · rw [if_neg h2]
        refine Memory.read_put v j ?_
        simp only [Memory.wfFrom, Bool.and_eq_true, decide_eq_true_eq]
        exact ⟨⟨by omega, h.1.2⟩, h.2⟩

/-- A read after a write: the written byte at its index, every other byte as before. -/
theorem Memory.read_write {m : Memory} (i j : Nat) (v : Byte) (h : m.wf = true) :
    (m.write i v).read j = if j = i then v else m.read j :=
  Memory.read_write_from v j h

theorem Memory.below_put {n i : Nat} {m : Memory} (v : Byte) (hi : i < n) (h : m.below n = true) :
    (Memory.put i v m).below n = true := by
  unfold Memory.put
  split
  · exact h
  · simpa [Memory.below, hi] using h

/-- A write below `n` keeps every listed address below `n`. -/
theorem Memory.below_write {n i : Nat} {m : Memory} (v : Byte) (hi : i < n) (h : m.below n = true) :
    (m.write i v).below n = true := by
  induction m with
  | nil => exact Memory.below_put v hi rfl
  | cons c m ih =>
    obtain ⟨a, b⟩ := c
    have hc : a < n ∧ Memory.below n m = true := by simpa [Memory.below] using h
    simp only [Memory.write]
    split
    · have := ih hc.2
      simpa [Memory.below, hc.1] using this
    · split
      · exact Memory.below_put v hi hc.2
      · exact Memory.below_put v hi h

/-- Masked writes keep the canonical form. -/
theorem Memory.edits_wf {m : Memory} (es : List Edit) (h : m.wf = true) : (m.edits es).wf = true := by
  induction es generalizing m with
  | nil => exact h
  | cons e es ih => exact ih (Memory.write_wf _ _ h)

/-- Masked writes below `n` keep every listed address below `n`. -/
theorem Memory.below_edits {n : Nat} {m : Memory} {es : List Edit} (he : ∀ e ∈ es, e.index < n)
    (h : m.below n = true) : (m.edits es).below n = true := by
  induction es generalizing m with
  | nil => exact h
  | cons e es ih =>
    exact ih (fun d hd => he d (List.mem_cons_of_mem _ hd))
      (Memory.below_write _ (he e List.mem_cons_self) h)

@[simp] theorem Memory.edits_nil (m : Memory) : m.edits [] = m := rfl

theorem Memory.edits_append (m : Memory) (es fs : List Edit) :
    m.edits (es ++ fs) = (m.edits es).edits fs := List.foldl_append ..

/-- The byte at an index after masked writes: those at that index, in order, applied to the byte before. -/
theorem Memory.read_edits {m : Memory} (es : List Edit) (i : Nat) (h : m.wf = true) :
    (m.edits es).read i =
      (es.filter fun e => e.index == i).foldl (fun b e => maskedByte b e.mask e.val) (m.read i) := by
  induction es generalizing m with
  | nil => rfl
  | cons e es ih =>
    have := ih (Memory.write_wf (m := m) e.index (maskedByte (m.read e.index) e.mask e.val) h)
    simp only [Memory.edits, List.foldl_cons, Memory.edit] at this ⊢
    rw [this, Memory.read_write _ _ _ h]
    by_cases hi : e.index = i
    · simp [hi]
    · have : ¬ i = e.index := fun hc => hi hc.symm
      simp [hi, this]

/-- An index no masked write names reads as before. -/
theorem Memory.read_edits_other {m : Memory} {es : List Edit} {i : Nat} (h : m.wf = true)
    (hi : ∀ e ∈ es, e.index ≠ i) : (m.edits es).read i = m.read i := by
  rw [Memory.read_edits es i h]
  have : (es.filter fun e => e.index == i) = [] := by
    simpa [List.filter_eq_nil_iff] using hi
  simp [this]

/-- Two canonical storages that read alike everywhere are equal data. -/
theorem Memory.ext_from {lo : Nat} {m n : Memory} (hm : Memory.wfFrom lo m = true)
    (hn : Memory.wfFrom lo n = true) (h : ∀ i, m.read i = n.read i) : m = n := by
  induction m generalizing lo n with
  | nil =>
    cases n with
    | nil => rfl
    | cons d n =>
      have h1 := h d.1
      simp only [Memory.wfFrom, Bool.and_eq_true, bne_iff_ne] at hn
      simp [Memory.read] at h1
      exact absurd h1.symm hn.1.2
  | cons c m ih =>
    obtain ⟨a, b⟩ := c
    have hm' := hm
    simp only [Memory.wfFrom, Bool.and_eq_true, bne_iff_ne, decide_eq_true_eq] at hm'
    cases n with
    | nil =>
      have h1 := h a
      simp [Memory.read] at h1
      exact absurd h1 hm'.1.2
    | cons d n =>
      obtain ⟨a', b'⟩ := d
      have hn' := hn
      simp only [Memory.wfFrom, Bool.and_eq_true, bne_iff_ne, decide_eq_true_eq] at hn'
      have ha : a = a' := by
        rcases Nat.lt_trichotomy a a' with hlt | heq | hlt
        · have h1 := h a
          rw [Memory.read_below (lo := a') (m := (a', b') :: n)
            (by simp [Memory.wfFrom, hn'.1.2, hn'.2]) hlt] at h1
          simp [Memory.read] at h1
          exact absurd h1 hm'.1.2
        · exact heq
        · have h1 := h a'
          rw [Memory.read_below (lo := a) (m := (a, b) :: m)
            (by simp [Memory.wfFrom, hm'.1.2, hm'.2]) hlt] at h1
          simp [Memory.read] at h1
          exact absurd h1.symm hn'.1.2
      subst ha
      have hb : b = b' := by simpa [Memory.read] using h a
      subst hb
      have hrest : m = n := by
        refine ih hm'.2 hn'.2 fun i => ?_
        by_cases hi : a < i
        · have := h i
          simpa [Memory.read, hi] using this
        · rw [Memory.read_below hm'.2 (by omega), Memory.read_below hn'.2 (by omega)]
      rw [hrest]

theorem Memory.ext_wf {m n : Memory} (hm : m.wf = true) (hn : n.wf = true)
    (h : ∀ i, m.read i = n.read i) : m = n :=
  Memory.ext_from hm hn h

/-- Cells made of given bytes from index `lo` on are canonical from `lo` on, lie below the end, and read as
the bytes. -/
theorem Memory.ofBytes_spec (bytes : List Byte) (lo : Nat) :
    let m : Memory := ((bytes.zipIdx lo).map fun c => (c.2, c.1)).filter fun c => c.2 != Memory.unlisted
    Memory.wfFrom lo m = true ∧ m.below (lo + bytes.length) = true ∧
      ∀ i, m.read (lo + i) = bytes.getD i Memory.unlisted := by
  induction bytes generalizing lo with
  | nil => exact ⟨rfl, rfl, fun i => by simp [Memory.read]⟩
  | cons b bytes ih =>
    obtain ⟨h1, h2, h3⟩ := ih (lo + 1)
    rw [show lo + 1 + bytes.length = lo + (b :: bytes).length by simp; omega] at h2
    have hread : ∀ m : Memory, Memory.wfFrom (lo + 1) m = true →
        (∀ i, m.read (lo + 1 + i) = bytes.getD i Memory.unlisted) →
        ∀ i, m.read (lo + (i + 1)) = (b :: bytes).getD (i + 1) Memory.unlisted := by
      intro m _ h i
      rw [show lo + (i + 1) = lo + 1 + i by omega, h i]
      simp
    by_cases hb : b = Memory.unlisted
    · simp only [List.zipIdx_cons, List.map_cons, List.filter_cons, hb, bne_self_eq_false,
        Bool.false_eq_true, if_false]
      refine ⟨Memory.wfFrom_mono (by omega) h1, h2, fun i => ?_⟩
      cases i with
      | zero => rw [Memory.read_below h1 (by omega)]; simp
      | succ i => rw [hread _ h1 h3 i]; simp
    · have hb' : (b != Memory.unlisted) = true := by simpa using hb
      simp only [List.zipIdx_cons, List.map_cons, List.filter_cons, hb', if_true]
      refine ⟨by simp only [Memory.wfFrom, hb', h1]; simp, ?_, fun i => ?_⟩
      · have : lo < lo + (b :: bytes).length := by simp
        simp only [Memory.below, List.all_cons, this, decide_true, Bool.true_and]
        exact h2
      · cases i with
        | zero => simp [Memory.read]
        | succ i =>
          rw [← hread _ h1 h3 i, Memory.read, if_pos (by omega)]

theorem Memory.ofBytes_wf (bytes : List Byte) : (Memory.ofBytes bytes).wf = true :=
  (Memory.ofBytes_spec bytes 0).1

theorem Memory.ofBytes_below {n : Nat} {bytes : List Byte} (h : bytes.length ≤ n) :
    (Memory.ofBytes bytes).below n = true := by
  have := (Memory.ofBytes_spec bytes 0).2.1
  simp only [Memory.below, List.all_eq_true, decide_eq_true_eq] at this ⊢
  intro c hc
  have := this c hc
  omega

theorem Memory.read_ofBytes (bytes : List Byte) (i : Nat) :
    (Memory.ofBytes bytes).read i = bytes.getD i Memory.unlisted := by
  have := (Memory.ofBytes_spec bytes 0).2.2 i
  rw [Nat.zero_add] at this
  exact this

end Sys2Proof.Machine
end

