-- ==== Sys2Proof/Laws/Bits.lean ====
section
/-! SUPPORT. Bits of bytes: what a masked write, the masks of R32 and R128 and the fill byte of R108 hold at
each bit position. -/

namespace Sys2Proof.Machine

open Sys2Proof

/-- Bit `i` after a masked write: the new value's under the mask, else the old one's (R36). -/
@[simp] theorem maskedByte_getLsbD (old mask val : Byte) (i : Nat) :
    (maskedByte old mask val).getLsbD i = if mask.getLsbD i then val.getLsbD i else old.getLsbD i := by
  rw [maskedByte, BitVec.getLsbD_or, BitVec.getLsbD_and, BitVec.getLsbD_and, BitVec.getLsbD_not]
  by_cases hi : i < 8
  · cases hm : mask.getLsbD i <;> simp [hi]
  · simp [BitVec.getLsbD_of_ge _ _ (Nat.le_of_not_lt hi)]

/-- A full mask stores the value, a zero mask changes nothing (R36). -/
theorem maskedByte_full (old val : Byte) : maskedByte old 0xFF#8 val = val := by
  apply BitVec.eq_of_getLsbD_eq
  intro i hi
  have : (0xFF#8).getLsbD i = true := by
    revert hi i
    decide
  rw [maskedByte_getLsbD, this, if_pos rfl]

theorem maskedByte_none (old val : Byte) : maskedByte old 0x00#8 val = old := by
  apply BitVec.eq_of_getLsbD_eq
  intro i _
  simp

/-- Each mask of one bit (R32). -/
@[simp] theorem bitMask_getLsbD (xr i : Nat) : (bitMask xr).getLsbD i = decide (i = xr % 8) := by
  have h : xr % 8 < 8 := Nat.mod_lt _ (by decide)
  unfold bitMask
  by_cases hi : i < 8
  · revert hi h
    generalize xr % 8 = k
    intro hk hi
    have : ∀ k < 8, ∀ i < 8, (1#8 <<< k).getLsbD i = decide (i = k) := by decide
    exact this k hk i hi
  · rw [BitVec.getLsbD_of_ge _ _ (Nat.le_of_not_lt hi)]
    have : ¬ i = xr % 8 := by omega
    simp [this]

/-- The mask of bits `s .. e` (R128). -/
theorem spanMask_getLsbD {s e : Nat} (hs : s < 8) (he : e < 8) (i : Nat) (hi : i < 8) :
    (spanMask s e).getLsbD i = decide (s ≤ i ∧ i ≤ e) := by
  have : ∀ s < 8, ∀ e < 8, ∀ i < 8, (spanMask s e).getLsbD i = decide (s ≤ i ∧ i ≤ e) := by decide +kernel
  exact this s hs e he i hi

/-- The mask of bits `0 .. n-1` (R128). -/
theorem tailMask_getLsbD {n : Nat} (hn : n < 8) (i : Nat) (hi : i < 8) :
    (tailMask n).getLsbD i = decide (i < n) := by
  have : ∀ n < 8, ∀ i < 8, (tailMask n).getLsbD i = decide (i < n) := by decide +kernel
  exact this n hn i hi

/-- The byte of eight bits holds each of them. -/
theorem byteOfBits_getLsbD (f : Nat → Bool) (i : Nat) (hi : i < 8) : (byteOfBits f).getLsbD i = f i := by
  have h : ∀ b0 b1 b2 b3 b4 b5 b6 b7 : Bool, ∀ i < 8,
      (BitVec.ofNat 8 (b0.toNat <<< 0 + (b1.toNat <<< 1 + (b2.toNat <<< 2 + (b3.toNat <<< 3 +
        (b4.toNat <<< 4 + (b5.toNat <<< 5 + (b6.toNat <<< 6 + (b7.toNat <<< 7 + 0))))))))).getLsbD i =
      [b0, b1, b2, b3, b4, b5, b6, b7].getD i false := by
    decide +kernel
  have hb : byteOfBits f = BitVec.ofNat 8 ((f 0).toNat <<< 0 + ((f 1).toNat <<< 1 + ((f 2).toNat <<< 2 +
      ((f 3).toNat <<< 3 + ((f 4).toNat <<< 4 + ((f 5).toNat <<< 5 + ((f 6).toNat <<< 6 +
        ((f 7).toNat <<< 7 + 0)))))))) := rfl
  rw [hb, h _ _ _ _ _ _ _ _ i hi]
  have : i = 0 ∨ i = 1 ∨ i = 2 ∨ i = 3 ∨ i = 4 ∨ i = 5 ∨ i = 6 ∨ i = 7 := by omega
  rcases this with h | h | h | h | h | h | h | h <;> subst h <;> rfl

/-- Bit `b` of the fill byte is the colour bit at raw x `8k + b` (R108). -/
theorem fillByte_getLsbD (code : Code) (yr k b : Nat) (hb : b < 8) :
    (fillByte code yr k).getLsbD b = colourBit code (8 * k + b) yr :=
  byteOfBits_getLsbD _ b hb

/-- `read_bit` picks bit `xr mod 8` (R35). -/
theorem bitOf_eq (b : Byte) (xr : Nat) : bitOf b xr = b.getLsbD (xr % 8) := by
  have h : xr % 8 < 8 := Nat.mod_lt _ (by decide)
  unfold bitOf
  generalize xr % 8 = k at h
  have : ∀ k < 8, ∀ b : Byte, ((b >>> k) &&& 1#8 == 1#8) = b.getLsbD k := by decide +kernel
  exact this k h b

/-- `write_bit` in the form of R34: OR with the mask for 1, AND with its complement for 0. -/
theorem maskedByte_bit (old : Byte) (xr : Nat) (b : Bool) :
    maskedByte old (bitMask xr) (if b then 0xFF#8 else 0x00#8) =
      if b then old ||| bitMask xr else old &&& clrMask xr := by
  have h : xr % 8 < 8 := Nat.mod_lt _ (by decide)
  unfold bitMask clrMask bitMask
  generalize xr % 8 = k at h
  have : ∀ k < 8, ∀ old : Byte, ∀ b : Bool, maskedByte old (1#8 <<< k) (if b then 0xFF#8 else 0x00#8) =
      if b then old ||| 1#8 <<< k else old &&& (0xFF#8 ^^^ 1#8 <<< k) := by decide +kernel
  exact this k h old b

end Sys2Proof.Machine
end

