-- ==== Sys2Proof/Laws/Codec.lean ====
section
/-! SUPPORT. The fields of a packed word, and the small inverses of the encoding tables. -/

namespace Sys2Proof

theorem Opcode.ofByte_byte (o : Opcode) : Opcode.ofByte o.byte = some o := by
  cases o <;> decide

theorem Opcode.byte_of_ofByte {b : Byte} {o : Opcode} (h : Opcode.ofByte b = some o) : o.byte = b := by
  have := List.find?_some h
  simpa using this

@[simp] theorem Code.ofBits_toBits (c : Code) : Code.ofBits c.toBits = c := by
  cases c <;> rfl

@[simp] theorem Rotation.ofBits_toBits (r : Rotation) : Rotation.ofBits r.toBits = r := by
  cases r <;> rfl

/-- A field of a packed word is the value packed there: the six fields that are read, and `rsv` zero. -/
theorem pack_fields (o : Opcode) (code : Code) (a b c d : Int) :
    fieldOp (pack o code a b c d) = o.byte ∧ fieldRsv (pack o code a b c d) = 0#5 ∧
    fieldCode (pack o code a b c d) = code.toBits ∧ fieldA (pack o code a b c d) = operandField a ∧
    fieldB (pack o code a b c d) = operandField b ∧ fieldC (pack o code a b c d) = operandField c ∧
    fieldD (pack o code a b c d) = operandField d := by
  unfold fieldOp fieldRsv fieldCode fieldA fieldB fieldC fieldD pack
  generalize o.byte = x0
  generalize code.toBits = x2
  generalize operandField a = x3
  generalize operandField b = x4
  generalize operandField c = x5
  generalize operandField d = x6
  refine ⟨?_, ?_, ?_, ?_, ?_, ?_, ?_⟩ <;>
    · apply BitVec.eq_of_getLsbD_eq
      intro i hi
      simp only [BitVec.getLsbD_extractLsb', BitVec.getLsbD_append, hi, decide_true, Bool.true_and]
      repeat' first
        | rfl
        | (split <;> try omega)
        | (congr 1; omega)

end Sys2Proof
end

