-- ==== Sys2Proof/Laws/State.lean ====
section
/-! SUPPORT. For each named update of State, what each field holds after it, and what the readings made of
fields give. -/

namespace Sys2Proof.Machine

open Sys2Proof

/-! respond -/

@[simp] theorem State.respond_params (s : State) (r : Response) : (s.respond r).params = s.params := rfl

@[simp] theorem State.respond_storage (s : State) (r : Response) : (s.respond r).storage = s.storage := rfl

@[simp] theorem State.respond_rot (s : State) (r : Response) : (s.respond r).rot = s.rot := rfl

@[simp] theorem State.respond_vcom (s : State) (r : Response) : (s.respond r).vcom = s.vcom := rfl

@[simp] theorem State.respond_seq (s : State) (r : Response) : (s.respond r).seq = s.seq := rfl

@[simp] theorem State.respond_selectHigh (s : State) (r : Response) : (s.respond r).selectHigh = s.selectHigh := rfl

@[simp] theorem State.respond_busOpen (s : State) (r : Response) : (s.respond r).busOpen = s.busOpen := rfl

@[simp] theorem State.respond_inputs (s : State) (r : Response) : (s.respond r).inputs = s.inputs := rfl

@[simp] theorem State.respond_dataIn (s : State) (r : Response) : (s.respond r).dataIn = s.dataIn := rfl

@[simp] theorem State.respond_dataOut (s : State) (r : Response) : (s.respond r).dataOut = s.dataOut := rfl

@[simp] theorem State.respond_responses (s : State) (r : Response) : (s.respond r).responses = s.responses ++ [r] := rfl

@[simp] theorem State.respond_events (s : State) (r : Response) : (s.respond r).events = s.events := rfl

@[simp] theorem State.respond_transport (s : State) (r : Response) : (s.respond r).transport = s.transport := rfl

@[simp] theorem State.respond_dataOutReady (s : State) (r : Response) : (s.respond r).dataOutReady = s.dataOutReady := rfl

/-! finish -/

@[simp] theorem State.finish_params (s : State) (r : Response) : (s.finish r).params = s.params := rfl

@[simp] theorem State.finish_storage (s : State) (r : Response) : (s.finish r).storage = s.storage := rfl

@[simp] theorem State.finish_rot (s : State) (r : Response) : (s.finish r).rot = s.rot := rfl

@[simp] theorem State.finish_vcom (s : State) (r : Response) : (s.finish r).vcom = s.vcom := rfl

@[simp] theorem State.finish_seq (s : State) (r : Response) : (s.finish r).seq = .idle := rfl

@[simp] theorem State.finish_selectHigh (s : State) (r : Response) : (s.finish r).selectHigh = s.selectHigh := rfl

@[simp] theorem State.finish_busOpen (s : State) (r : Response) : (s.finish r).busOpen = s.busOpen := rfl

@[simp] theorem State.finish_inputs (s : State) (r : Response) : (s.finish r).inputs = s.inputs := rfl

@[simp] theorem State.finish_dataIn (s : State) (r : Response) : (s.finish r).dataIn = s.dataIn := rfl

@[simp] theorem State.finish_dataOut (s : State) (r : Response) : (s.finish r).dataOut = s.dataOut := rfl

@[simp] theorem State.finish_responses (s : State) (r : Response) : (s.finish r).responses = s.responses ++ [r] := rfl

@[simp] theorem State.finish_events (s : State) (r : Response) : (s.finish r).events = s.events := rfl

@[simp] theorem State.finish_transport (s : State) (r : Response) : (s.finish r).transport = s.transport := rfl

@[simp] theorem State.finish_dataOutReady (s : State) (r : Response) : (s.finish r).dataOutReady = s.dataOutReady := rfl

/-! toggleVcom -/

@[simp] theorem State.toggleVcom_params (s : State) : (s.toggleVcom).params = s.params := rfl

@[simp] theorem State.toggleVcom_storage (s : State) : (s.toggleVcom).storage = s.storage := rfl

@[simp] theorem State.toggleVcom_rot (s : State) : (s.toggleVcom).rot = s.rot := rfl

@[simp] theorem State.toggleVcom_vcom (s : State) : (s.toggleVcom).vcom = (s.vcom ^^ true) := rfl

@[simp] theorem State.toggleVcom_seq (s : State) : (s.toggleVcom).seq = s.seq := rfl

@[simp] theorem State.toggleVcom_selectHigh (s : State) : (s.toggleVcom).selectHigh = s.selectHigh := rfl

@[simp] theorem State.toggleVcom_busOpen (s : State) : (s.toggleVcom).busOpen = s.busOpen := rfl

@[simp] theorem State.toggleVcom_inputs (s : State) : (s.toggleVcom).inputs = s.inputs := rfl

@[simp] theorem State.toggleVcom_dataIn (s : State) : (s.toggleVcom).dataIn = s.dataIn := rfl

@[simp] theorem State.toggleVcom_dataOut (s : State) : (s.toggleVcom).dataOut = s.dataOut := rfl

@[simp] theorem State.toggleVcom_responses (s : State) : (s.toggleVcom).responses = s.responses := rfl

@[simp] theorem State.toggleVcom_events (s : State) : (s.toggleVcom).events = s.events := rfl

@[simp] theorem State.toggleVcom_transport (s : State) : (s.toggleVcom).transport = s.transport := rfl

@[simp] theorem State.toggleVcom_dataOutReady (s : State) : (s.toggleVcom).dataOutReady = s.dataOutReady := rfl

/-! rejectWord -/

@[simp] theorem State.rejectWord_params (s : State) : (s.rejectWord).params = s.params := rfl

@[simp] theorem State.rejectWord_storage (s : State) : (s.rejectWord).storage = s.storage := rfl

@[simp] theorem State.rejectWord_rot (s : State) : (s.rejectWord).rot = s.rot := rfl

@[simp] theorem State.rejectWord_vcom (s : State) : (s.rejectWord).vcom = s.vcom := rfl

@[simp] theorem State.rejectWord_seq (s : State) : (s.rejectWord).seq = s.seq := rfl

@[simp] theorem State.rejectWord_selectHigh (s : State) : (s.rejectWord).selectHigh = s.selectHigh := rfl

@[simp] theorem State.rejectWord_busOpen (s : State) : (s.rejectWord).busOpen = s.busOpen := rfl

@[simp] theorem State.rejectWord_inputs (s : State) : (s.rejectWord).inputs = s.inputs := rfl

@[simp] theorem State.rejectWord_dataIn (s : State) : (s.rejectWord).dataIn = s.dataIn := rfl

@[simp] theorem State.rejectWord_dataOut (s : State) : (s.rejectWord).dataOut = s.dataOut := rfl

@[simp] theorem State.rejectWord_responses (s : State) : (s.rejectWord).responses = s.responses ++ [.illegal] := rfl

@[simp] theorem State.rejectWord_events (s : State) : (s.rejectWord).events = s.events := rfl

@[simp] theorem State.rejectWord_transport (s : State) : (s.rejectWord).transport = s.transport := rfl

@[simp] theorem State.rejectWord_dataOutReady (s : State) : (s.rejectWord).dataOutReady = s.dataOutReady := rfl

/-! resetInput -/

@[simp] theorem State.resetInput_params (s : State) (c : List Byte) : (s.resetInput c).params = s.params := rfl

@[simp] theorem State.resetInput_storage (s : State) (c : List Byte) : (s.resetInput c).storage = Memory.ofBytes (c.take (storageSize s.params)) := rfl

@[simp] theorem State.resetInput_rot (s : State) (c : List Byte) : (s.resetInput c).rot = .rot0 := rfl

@[simp] theorem State.resetInput_vcom (s : State) (c : List Byte) : (s.resetInput c).vcom = s.params.vcomReset := rfl

@[simp] theorem State.resetInput_seq (s : State) (c : List Byte) : (s.resetInput c).seq = .idle := rfl

@[simp] theorem State.resetInput_selectHigh (s : State) (c : List Byte) : (s.resetInput c).selectHigh = false := rfl

@[simp] theorem State.resetInput_busOpen (s : State) (c : List Byte) : (s.resetInput c).busOpen = false := rfl

@[simp] theorem State.resetInput_inputs (s : State) (c : List Byte) : (s.resetInput c).inputs = s.inputs := rfl

@[simp] theorem State.resetInput_dataIn (s : State) (c : List Byte) : (s.resetInput c).dataIn = s.dataIn := rfl

@[simp] theorem State.resetInput_dataOut (s : State) (c : List Byte) : (s.resetInput c).dataOut = s.dataOut := rfl

@[simp] theorem State.resetInput_responses (s : State) (c : List Byte) : (s.resetInput c).responses = s.responses := rfl

@[simp] theorem State.resetInput_events (s : State) (c : List Byte) : (s.resetInput c).events = s.events := rfl

@[simp] theorem State.resetInput_transport (s : State) (c : List Byte) : (s.resetInput c).transport = s.transport := rfl

@[simp] theorem State.resetInput_dataOutReady (s : State) (c : List Byte) : (s.resetInput c).dataOutReady = s.dataOutReady := rfl

/-! present -/

@[simp] theorem State.present_params (s : State) (w : CmdWord) : (s.present w).params = s.params := rfl

@[simp] theorem State.present_storage (s : State) (w : CmdWord) : (s.present w).storage = s.storage := rfl

@[simp] theorem State.present_rot (s : State) (w : CmdWord) : (s.present w).rot = s.rot := rfl

@[simp] theorem State.present_vcom (s : State) (w : CmdWord) : (s.present w).vcom = s.vcom := rfl

@[simp] theorem State.present_seq (s : State) (w : CmdWord) : (s.present w).seq = .idle := rfl

@[simp] theorem State.present_selectHigh (s : State) (w : CmdWord) : (s.present w).selectHigh = false := rfl

@[simp] theorem State.present_busOpen (s : State) (w : CmdWord) : (s.present w).busOpen = false := rfl

@[simp] theorem State.present_inputs (s : State) (w : CmdWord) : (s.present w).inputs = .command w :: s.inputs := rfl

@[simp] theorem State.present_dataIn (s : State) (w : CmdWord) : (s.present w).dataIn = s.dataIn := rfl

@[simp] theorem State.present_dataOut (s : State) (w : CmdWord) : (s.present w).dataOut = s.dataOut := rfl

@[simp] theorem State.present_responses (s : State) (w : CmdWord) : (s.present w).responses = s.responses := rfl

@[simp] theorem State.present_events (s : State) (w : CmdWord) : (s.present w).events = s.events := rfl

@[simp] theorem State.present_transport (s : State) (w : CmdWord) : (s.present w).transport = s.transport := rfl

@[simp] theorem State.present_dataOutReady (s : State) (w : CmdWord) : (s.present w).dataOutReady = s.dataOutReady := rfl

/-! withTransport -/

@[simp] theorem State.withTransport_params (s : State) (r : Readiness) : (s.withTransport r).params = s.params := rfl

@[simp] theorem State.withTransport_storage (s : State) (r : Readiness) : (s.withTransport r).storage = s.storage := rfl

@[simp] theorem State.withTransport_rot (s : State) (r : Readiness) : (s.withTransport r).rot = s.rot := rfl

@[simp] theorem State.withTransport_vcom (s : State) (r : Readiness) : (s.withTransport r).vcom = s.vcom := rfl

@[simp] theorem State.withTransport_seq (s : State) (r : Readiness) : (s.withTransport r).seq = s.seq := rfl

@[simp] theorem State.withTransport_selectHigh (s : State) (r : Readiness) : (s.withTransport r).selectHigh = s.selectHigh := rfl

@[simp] theorem State.withTransport_busOpen (s : State) (r : Readiness) : (s.withTransport r).busOpen = s.busOpen := rfl

@[simp] theorem State.withTransport_inputs (s : State) (r : Readiness) : (s.withTransport r).inputs = s.inputs := rfl

@[simp] theorem State.withTransport_dataIn (s : State) (r : Readiness) : (s.withTransport r).dataIn = s.dataIn := rfl

@[simp] theorem State.withTransport_dataOut (s : State) (r : Readiness) : (s.withTransport r).dataOut = s.dataOut := rfl

@[simp] theorem State.withTransport_responses (s : State) (r : Readiness) : (s.withTransport r).responses = s.responses := rfl

@[simp] theorem State.withTransport_events (s : State) (r : Readiness) : (s.withTransport r).events = s.events := rfl

@[simp] theorem State.withTransport_transport (s : State) (r : Readiness) : (s.withTransport r).transport = r := rfl

@[simp] theorem State.withTransport_dataOutReady (s : State) (r : Readiness) : (s.withTransport r).dataOutReady = s.dataOutReady := rfl

/-! wait -/

@[simp] theorem State.wait_params (s : State) (q : Sequencer) : (s.wait q).params = s.params := rfl

@[simp] theorem State.wait_storage (s : State) (q : Sequencer) : (s.wait q).storage = s.storage := rfl

@[simp] theorem State.wait_rot (s : State) (q : Sequencer) : (s.wait q).rot = s.rot := rfl

@[simp] theorem State.wait_vcom (s : State) (q : Sequencer) : (s.wait q).vcom = s.vcom := rfl

@[simp] theorem State.wait_seq (s : State) (q : Sequencer) : (s.wait q).seq = q := rfl

@[simp] theorem State.wait_selectHigh (s : State) (q : Sequencer) : (s.wait q).selectHigh = s.selectHigh := rfl

@[simp] theorem State.wait_busOpen (s : State) (q : Sequencer) : (s.wait q).busOpen = s.busOpen := rfl

@[simp] theorem State.wait_inputs (s : State) (q : Sequencer) : (s.wait q).inputs = s.inputs := rfl

@[simp] theorem State.wait_dataIn (s : State) (q : Sequencer) : (s.wait q).dataIn = s.dataIn := rfl

@[simp] theorem State.wait_dataOut (s : State) (q : Sequencer) : (s.wait q).dataOut = s.dataOut := rfl

@[simp] theorem State.wait_responses (s : State) (q : Sequencer) : (s.wait q).responses = s.responses := rfl

@[simp] theorem State.wait_events (s : State) (q : Sequencer) : (s.wait q).events = s.events := rfl

@[simp] theorem State.wait_transport (s : State) (q : Sequencer) : (s.wait q).transport = s.transport := rfl

@[simp] theorem State.wait_dataOutReady (s : State) (q : Sequencer) : (s.wait q).dataOutReady = s.dataOutReady := rfl

/-! emit -/

@[simp] theorem State.emit_params (s : State) (e : TxEvent) : (s.emit e).params = s.params := by cases e <;> rfl

@[simp] theorem State.emit_storage (s : State) (e : TxEvent) : (s.emit e).storage = s.storage := by cases e <;> rfl

@[simp] theorem State.emit_rot (s : State) (e : TxEvent) : (s.emit e).rot = s.rot := by cases e <;> rfl

@[simp] theorem State.emit_vcom (s : State) (e : TxEvent) : (s.emit e).vcom = s.vcom := by cases e <;> rfl

@[simp] theorem State.emit_seq (s : State) (e : TxEvent) : (s.emit e).seq = s.seq := by cases e <;> rfl

@[simp] theorem State.emit_inputs (s : State) (e : TxEvent) : (s.emit e).inputs = s.inputs := by cases e <;> rfl

@[simp] theorem State.emit_dataIn (s : State) (e : TxEvent) : (s.emit e).dataIn = s.dataIn := by cases e <;> rfl

@[simp] theorem State.emit_dataOut (s : State) (e : TxEvent) : (s.emit e).dataOut = s.dataOut := by cases e <;> rfl

@[simp] theorem State.emit_responses (s : State) (e : TxEvent) : (s.emit e).responses = s.responses := by cases e <;> rfl

@[simp] theorem State.emit_events (s : State) (e : TxEvent) : (s.emit e).events = s.events ++ [e] := by
  cases e <;> rfl

@[simp] theorem State.emit_transport (s : State) (e : TxEvent) : (s.emit e).transport = s.transport := by cases e <;> rfl

@[simp] theorem State.emit_dataOutReady (s : State) (e : TxEvent) : (s.emit e).dataOutReady = s.dataOutReady := by cases e <;> rfl

@[simp] theorem State.emit_txBegin_busOpen (s : State) : (s.emit .txBegin).busOpen = true := rfl

@[simp] theorem State.emit_txBegin_selectHigh (s : State) : (s.emit .txBegin).selectHigh = s.selectHigh := rfl

@[simp] theorem State.emit_cs_busOpen (s : State) (l : Bool) : (s.emit (.cs l)).busOpen = s.busOpen := rfl

@[simp] theorem State.emit_cs_selectHigh (s : State) (l : Bool) : (s.emit (.cs l)).selectHigh = l := rfl

@[simp] theorem State.emit_byte_busOpen (s : State) (b : Byte) : (s.emit (.byte b)).busOpen = s.busOpen := rfl

@[simp] theorem State.emit_byte_selectHigh (s : State) (b : Byte) : (s.emit (.byte b)).selectHigh = s.selectHigh := rfl

@[simp] theorem State.emit_txEnd_busOpen (s : State) : (s.emit .txEnd).busOpen = false := rfl

@[simp] theorem State.emit_txEnd_selectHigh (s : State) : (s.emit .txEnd).selectHigh = s.selectHigh := rfl

/-! Readings. -/

theorem State.busy_eq_false {s : State} : s.busy = false ↔ s.seq = .idle := by
  simp [State.busy]

@[simp] theorem State.finish_busy (s : State) (r : Response) : (s.finish r).busy = false := rfl

@[simp] theorem State.respond_busy (s : State) (r : Response) : (s.respond r).busy = s.busy := rfl

@[simp] theorem State.respond_byte (s : State) (r : Response) (i : Nat) : (s.respond r).byte i = s.byte i := rfl

@[simp] theorem State.finish_byte (s : State) (r : Response) (i : Nat) : (s.finish r).byte i = s.byte i := rfl

@[simp] theorem State.toggleVcom_byte (s : State) (i : Nat) : s.toggleVcom.byte i = s.byte i := rfl

@[simp] theorem State.emit_byte (s : State) (e : TxEvent) (i : Nat) : (s.emit e).byte i = s.byte i := by
  cases e <;> rfl

@[simp] theorem State.withTransport_withTransport (s : State) (r r' : Readiness) :
    (s.withTransport r).withTransport r' = s.withTransport r' := rfl

theorem State.withTransport_self {s : State} {r : Readiness} (h : s.transport = r) : s.withTransport r = s := by
  subst h
  rfl

theorem State.emit_withTransport (s : State) (r : Readiness) (e : TxEvent) :
    (s.withTransport r).emit e = (s.emit e).withTransport r := by
  cases e <;> rfl

/-- The host's reset state is an instance of reset with any contents: the default display, no byte given. -/
theorem State.reset_eq : State.reset = State.resetWith Params.default [] := rfl

end Sys2Proof.Machine
end

