-- ==== Sys2Proof/Laws/Ops.lean ====
section
/-! SUPPORT. One lemma for each shared operation that says everything it can do. -/

namespace Sys2Proof.Machine

open Sys2Proof

/-- Writes at indexes that exist are all made. -/
theorem State.store_eq {s : State} {es : List Edit} (h : ∀ e ∈ es, e.index < storageSize s.params) :
    s.store es = .next { s with storage := s.storage.edits es } := by
  have : (es.find? fun e => !decide (e.index < storageSize s.params)) = none := by
    simpa [List.find?_eq_none] using h
  simp [State.store, this]

/-- What writes can do: all of them, when every index exists, or the fault of one that does not. -/
theorem State.store_cases (s : State) (es : List Edit) :
    ((∀ e ∈ es, e.index < storageSize s.params) ∧
      s.store es = .next { s with storage := s.storage.edits es }) ∨
    ∃ e ∈ es, storageSize s.params ≤ e.index ∧ s.store es = .fault (.outsideStorage e.index) := by
  by_cases h : ∀ e ∈ es, e.index < storageSize s.params
  · exact .inl ⟨h, State.store_eq h⟩
  · right
    cases hf : es.find? fun e => !decide (e.index < storageSize s.params) with
    | none => simp [List.find?_eq_none] at hf; exact absurd hf h
    | some e =>
      refine ⟨e, List.mem_of_find?_eq_some hf, ?_, by simp [State.store, hf]⟩
      simpa using List.find?_some hf

/-- Reads at indexes that exist give the bytes. -/
theorem State.fetch_eq {s : State} {is : List Nat} (h : ∀ i ∈ is, i < storageSize s.params) :
    s.fetch is = .ok (is.map s.byte) := by
  have : (is.find? fun i => !decide (i < storageSize s.params)) = none := by
    simpa [List.find?_eq_none] using h
  simp [State.fetch, this]

@[simp] theorem andThen_next (s : State) (f : State → Answer) : andThen (.next s) f = f s := rfl

@[simp] theorem andThen_fault (r : Fault) (f : State → Answer) : andThen (.fault r) f = .fault r := rfl

@[simp] theorem andThen_refused (r : Refusal) (f : State → Answer) : andThen (.refused r) f = .refused r := rfl

@[simp] theorem withBytes_ok (bs : List Byte) (f : List Byte → Answer) : withBytes (.ok bs) f = f bs := rfl

@[simp] theorem withBytes_error (r : Fault) (f : List Byte → Answer) : withBytes (.error r) f = .fault r := rfl

theorem andThen_eq_next {o : Answer} {f : State → Answer} {t : State} :
    andThen o f = .next t ↔ ∃ u, o = .next u ∧ f u = .next t := by
  cases o <;> simp

theorem withBytes_eq_next {o : Except Fault (List Byte)} {f : List Byte → Answer} {t : State} :
    withBytes o f = .next t ↔ ∃ bs, o = .ok bs ∧ f bs = .next t := by
  cases o <;> simp

/-- A meaning runs on an idle SMDC. -/
theorem State.whenIdle_idle {s : State} (a : Answer) (h : s.busy = false) : s.whenIdle a = a := by
  simp [State.whenIdle, h]

/-- A meaning that answers a next state ran on an idle SMDC. -/
theorem State.whenIdle_eq_next {s t : State} {a : Answer} :
    s.whenIdle a = .next t ↔ s.busy = false ∧ a = .next t := by
  cases h : s.busy <;> simp [State.whenIdle, h]

/-- A drawing command on an idle SMDC, its indexes existing: the masked writes and `DONE`, nothing else. -/
theorem State.draw_eq {s : State} {es : List Edit} (h : ∀ e ∈ es, e.index < storageSize s.params) :
    s.draw es = .next ({ s with storage := s.storage.edits es }.respond .done) := by
  simp [State.draw, State.store_eq h]

/-- Writes that answer a next state had indexes that exist and changed storage alone. -/
theorem State.store_eq_next {s t : State} {es : List Edit} (h : s.store es = .next t) :
    (∀ e ∈ es, e.index < storageSize s.params) ∧ t = { s with storage := s.storage.edits es } := by
  rcases s.store_cases es with ⟨hi, he⟩ | ⟨e, _, _, he⟩
  · rw [he] at h
    exact ⟨hi, (by simpa using h.symm)⟩
  · rw [he] at h
    simp at h

theorem State.draw_eq_next {s t : State} {es : List Edit} (h : s.draw es = .next t) :
    (∀ e ∈ es, e.index < storageSize s.params) ∧
      t = { s with storage := s.storage.edits es }.respond .done := by
  obtain ⟨u, hu, ht⟩ := andThen_eq_next.mp h
  obtain ⟨hi, rfl⟩ := State.store_eq_next hu
  exact ⟨hi, by simpa using ht.symm⟩

/-- Transfers granted never exceed those wanted. -/
theorem Readiness.grant_le (r : Readiness) (want : Nat) : r.grant want ≤ want := by
  cases r <;> simp [Readiness.grant]

/-- A port that covers what is wanted grants it all. -/
theorem Readiness.grant_of_covers {r : Readiness} {want : Nat} (h : r.covers want = true) :
    r.grant want = want := by
  cases r with
  | always => rfl
  | upTo n =>
    have : want ≤ n := by simpa [Readiness.covers] using h
    simpa [Readiness.grant] using this

/-- The operations of a frame applied one after the other, whatever the Transport's readiness. -/
def applyOps : List TxOp → State → State
  | [], s => s
  | .toggle :: ops, s => applyOps ops s.toggleVcom
  | .emit e :: ops, s => applyOps ops (s.emit e)

theorem applyOps_withTransport (ops : List TxOp) (s : State) (r : Readiness) :
    applyOps ops (s.withTransport r) = (applyOps ops s).withTransport r := by
  induction ops generalizing s with
  | nil => rfl
  | cons op ops ih =>
    cases op with
    | toggle => exact ih s.toggleVcom
    | emit e =>
      simp only [applyOps, State.emit_withTransport]
      exact ih _

theorem applyOps_append (ops ops' : List TxOp) (s : State) :
    applyOps (ops ++ ops') s = applyOps ops' (applyOps ops s) := by
  induction ops generalizing s with
  | nil => rfl
  | cons op ops ih => cases op <;> exact ih _

/-- A frame the Transport accepts whole: all its operations, then `DONE`. -/
theorem runTx_covered (ops : List TxOp) (s : State) (h : s.transport.covers (txEvents ops).length = true) :
    runTx ops s =
      ((applyOps ops s).withTransport (s.transport.spend (txEvents ops).length)).finish .done := by
  induction ops generalizing s with
  | nil =>
    have : s.transport.spend 0 = s.transport := by cases s.transport <;> rfl
    simp [runTx, applyOps, txEvents, this, State.withTransport_self]
  | cons op ops ih =>
    cases op with
    | toggle => exact ih s.toggleVcom (by simpa [txEvents] using h)
    | emit e =>
      match hr : s.transport with
      | .always =>
        have := ih (s.emit e) (by simp [hr, Readiness.covers])
        simpa [runTx, hr, txEvents, Readiness.spend, applyOps] using this
      | .upTo 0 => simp [hr, Readiness.covers, txEvents] at h
      | .upTo (n + 1) =>
        have hle : (txEvents ops).length ≤ n := by simpa [hr, Readiness.covers, txEvents] using h
        have := ih ((s.withTransport (.upTo n)).emit e) (by simp [Readiness.covers, hle])
        rw [State.emit_withTransport, applyOps_withTransport] at this
        simpa [runTx, hr, txEvents, Readiness.spend, applyOps, State.emit_withTransport] using this

/-- A frame the Transport accepts only `n` events of, fewer than it has: the command stays in progress, its
first `n` events out, no response given (R157). -/
theorem runTx_stalled (ops : List TxOp) (s : State) (n : Nat) (hr : s.transport = .upTo n)
    (h : n < (txEvents ops).length) :
    ∃ done rest e, ops = done ++ .emit e :: rest ∧ (txEvents done).length = n ∧
      runTx ops s = ((applyOps done s).withTransport (.upTo 0)).wait (.transmitting (.emit e :: rest)) := by
  induction ops generalizing s n with
  | nil => simp [txEvents] at h
  | cons op ops ih =>
    cases op with
    | toggle =>
      obtain ⟨d, r, e, h1, h2, h3⟩ := ih s.toggleVcom n (by simpa using hr) (by simpa [txEvents] using h)
      exact ⟨.toggle :: d, r, e, by simp [h1], by simpa [txEvents] using h2, by simpa [runTx, applyOps] using h3⟩
    | emit e =>
      cases n with
      | zero =>
        refine ⟨[], ops, e, rfl, rfl, ?_⟩
        simp [runTx, hr, applyOps, State.withTransport_self hr]
      | succ n =>
        obtain ⟨d, r, e', h1, h2, h3⟩ := ih ((s.withTransport (.upTo n)).emit e) n (by simp)
          (by simpa [txEvents] using h)
        refine ⟨.emit e :: d, r, e', by simp [h1], by simpa [txEvents] using h2, ?_⟩
        rw [State.emit_withTransport, applyOps_withTransport] at h3
        simpa [runTx, hr, applyOps, State.emit_withTransport] using h3

/-- What the sequencer held before a frame is run does not matter: the run sets it. -/
theorem runTx_wait (ops : List TxOp) (s : State) (q : Sequencer) : runTx ops (s.wait q) = runTx ops s := by
  induction ops generalizing s with
  | nil => rfl
  | cons op ops ih =>
    cases op with
    | toggle => exact ih s.toggleVcom
    | emit e =>
      have he (u : State) : (u.wait q).emit e = (u.emit e).wait q := by cases e <;> rfl
      match hr : s.transport with
      | .always => simpa [runTx, hr, he] using ih (s.emit e)
      | .upTo 0 => simp [runTx, hr, State.wait]
      | .upTo (n + 1) =>
        have hw : (s.wait q).withTransport (.upTo n) = (s.withTransport (.upTo n)).wait q := rfl
        simpa [runTx, hr, he, hw] using ih ((s.withTransport (.upTo n)).emit e)

/-- A frame the Transport holds up after `n` events keeps what remains of it, and that, run once the Transport
accepts events again, gives what the whole frame gives when those `n` and these are accepted at once (R157). -/
theorem runTx_resumes (ops : List TxOp) (s : State) (n : Nat) (r : Readiness) (hr : s.transport = .upTo n)
    (h : n < (txEvents ops).length) :
    ∃ e rest, (runTx ops s).seq = .transmitting (.emit e :: rest) ∧
      runTx (.emit e :: rest) ((runTx ops s).withTransport r) = runTx ops (s.withTransport (r.after n)) := by
  induction ops generalizing s n with
  | nil => simp [txEvents] at h
  | cons op ops ih =>
    cases op with
    | toggle => exact ih s.toggleVcom n (by simpa using hr) (by simpa [txEvents] using h)
    | emit e =>
      cases n with
      | zero =>
        have hz : r.after 0 = r := by cases r <;> simp [Readiness.after]
        refine ⟨e, ops, by simp [runTx, hr], ?_⟩
        rw [hz, ← runTx_wait _ (s.withTransport r) (.transmitting (.emit e :: ops))]
        simp [runTx, hr, State.wait, State.withTransport]
      | succ n =>
        obtain ⟨e', rest, h1, h2⟩ :=
          ih ((s.withTransport (.upTo n)).emit e) n (by simp) (by simpa [txEvents] using h)
        refine ⟨e', rest, by simpa [runTx, hr] using h1, ?_⟩
        have hw : ((s.withTransport (.upTo n)).emit e).withTransport (r.after n) =
            (s.withTransport (r.after n)).emit e := by cases e <;> rfl
        rw [hw] at h2
        have hl : runTx (.emit e :: ops) s = runTx ops ((s.withTransport (.upTo n)).emit e) := by simp [runTx, hr]
        have hn : runTx (.emit e :: ops) (s.withTransport (r.after (n + 1))) =
            runTx ops ((s.withTransport (r.after n)).emit e) := by
          cases r with
          | always => rfl
          | upTo m => simp [Readiness.after, runTx, Nat.add_right_comm n 1 m, State.withTransport]
        rw [hl, hn, h2]

/-- A frame run against the Transport, however far it gets, changes nothing but the bias flag, the levels,
the sequencer, the events, the responses and the readiness. -/
theorem runTx_keeps (ops : List TxOp) (s : State) :
    (runTx ops s).params = s.params ∧ (runTx ops s).storage = s.storage ∧ (runTx ops s).rot = s.rot ∧
      (runTx ops s).inputs = s.inputs ∧ (runTx ops s).dataIn = s.dataIn ∧
      (runTx ops s).dataOut = s.dataOut ∧ (runTx ops s).dataOutReady = s.dataOutReady := by
  induction ops generalizing s with
  | nil => exact ⟨rfl, rfl, rfl, rfl, rfl, rfl, rfl⟩
  | cons op ops ih =>
    cases op with
    | toggle => simpa [runTx] using ih s.toggleVcom
    | emit e =>
      match hr : s.transport with
      | .always => simpa [runTx, hr] using ih (s.emit e)
      | .upTo 0 => simp [runTx, hr]
      | .upTo (n + 1) => simpa [runTx, hr] using ih ((s.withTransport (.upTo n)).emit e)

end Sys2Proof.Machine
end

