-- ==== Sys2Proof/Laws/PerInstr.lean ====
section
/-! SUPPORT. The laws stated per command: every word the encoder makes has its row's opcode and zero reserved
bits (R50, R52, R54). -/

namespace Sys2Proof.Laws.WordFormat

open Sys2Proof

/-- The encoder's word is of its row of R52. -/
def Statement (i : Instr) : Prop :=
  fieldOp (encode i) = i.opcode.byte ∧ fieldRsv (encode i) = 0#5

theorem of_pack {i : Instr} {o : Opcode} {code : Code} {a b c d : Int} (ho : i.opcode = o)
    (h : encode i = pack o code a b c d) : Statement i := by
  obtain ⟨h1, h2, _⟩ := pack_fields o code a b c d
  exact ⟨by rw [h, h1, ho], by rw [h, h2]⟩

theorem setpix (x y : Int) (code : Code) : Statement (.setpix x y code) := of_pack rfl rfl

theorem getpix (x y : Int) : Statement (.getpix x y) := of_pack rfl rfl

theorem clear : Statement (.clear) := of_pack rfl rfl

theorem snapshot : Statement (.snapshot) := of_pack rfl rfl

theorem restore : Statement (.restore) := of_pack rfl rfl

theorem setrot (r : Rotation) : Statement (.setrot r) := of_pack rfl rfl

theorem fillrect (x y w h : Int) (code : Code) : Statement (.fillrect x y w h code) := of_pack rfl rfl

theorem hline (x y w : Int) (code : Code) : Statement (.hline x y w code) := of_pack rfl rfl

theorem rawhline (x y w : Int) (code : Code) : Statement (.rawhline x y w code) := of_pack rfl rfl

theorem rawvline (x y h : Int) (code : Code) : Statement (.rawvline x y h code) := of_pack rfl rfl

theorem refresh : Statement (.refresh) := of_pack rfl rfl

theorem cleartx : Statement (.cleartx) := of_pack rfl rfl

end Sys2Proof.Laws.WordFormat
end

