-- ==== Sys2Proof/Laws/Range.lean ====
section
/-! SUPPORT. Every index a command computes exists (R47): the pieces. -/

namespace Sys2Proof.Machine

open Sys2Proof

/-- Byte column `k` of raw line `y` lies in storage (R40). -/
theorem column_lt {p : Params} {y k : Nat} (hy : y < p.rawH) (hk : k < rowBytes p) :
    y * rowBytes p + k < storageSize p := by
  have h : (y + 1) * rowBytes p ≤ p.rawH * rowBytes p := Nat.mul_le_mul_right _ hy
  rw [Nat.add_mul, Nat.one_mul] at h
  unfold storageSize
  rw [Nat.mul_comm (rowBytes p) p.rawH]
  omega

/-- The byte column of a raw x on the display exists. -/
theorem column_of_x {p : Params} {x : Nat} (hx : x < p.rawW) : x / 8 < rowBytes p := by
  unfold rowBytes
  omega

/-- `byte_index` of an in-range raw pixel lies in storage (R31). -/
theorem byteIndex_lt {p : Params} {x y : Nat} (hx : x < p.rawW) (hy : y < p.rawH) :
    byteIndex p x y < storageSize p := by
  have := column_lt hy (column_of_x hx)
  unfold byteIndex
  omega

/-- An in-bounds logical point lands on the raw display (R83). -/
theorem rotate_in_range {p : Params} {r : Rotation} {x y : Int} (h : inBounds p r x y = true) :
    rawX p r x y < p.rawW ∧ rawY p r x y < p.rawH ∧
      (rawX p r x y : Int) = (rotate p r x y).1 ∧ (rawY p r x y : Int) = (rotate p r x y).2 := by
  simp only [inBounds, Bool.and_eq_true, decide_eq_true_eq] at h
  cases r <;> simp only [rawX, rawY, rotate, width, height] at * <;> omega

theorem setpixEdits_in_range {p : Params} {r : Rotation} {x y : Int} {code : Code} :
    ∀ e ∈ setpixEdits p r x y code, e.index < storageSize p := by
  intro e he
  unfold setpixEdits at he
  split at he
  · obtain ⟨hx, hy, _⟩ := rotate_in_range ‹_›
    simp only [List.mem_singleton] at he
    subst he
    exact byteIndex_lt hx hy
  · simp at he

theorem whiteEdits_in_range {p : Params} : ∀ e ∈ whiteEdits p, e.index < storageSize p := by
  intro e he
  simp only [whiteEdits, List.mem_map, List.mem_range] at he
  obtain ⟨i, hi, rfl⟩ := he
  exact hi

theorem payloadEdits_in_range {N n : Nat} {bytes : List Byte} (h : n + bytes.length ≤ N) :
    ∀ e ∈ payloadEdits n bytes, e.index < N := by
  intro e he
  simp only [payloadEdits, List.mem_map] at he
  obtain ⟨c, hc, rfl⟩ := he
  have := List.snd_lt_add_of_mem_zipIdx hc
  show c.2 < N
  omega

theorem alignedRunEdits_in_range {p : Params} {code : Code} {y k n : Nat} (hy : y < p.rawH)
    (hn : 8 * k + n ≤ p.rawW) : ∀ e ∈ alignedRunEdits p code y k n, e.index < storageSize p := by
  intro e he
  simp only [alignedRunEdits, List.mem_append, List.mem_map, List.mem_range] at he
  have hcol : ∀ j, 8 * j < p.rawW → j < rowBytes p := fun j hj => by unfold rowBytes; omega
  rcases he with ⟨j, hj, rfl⟩ | he
  · exact column_lt hy (hcol _ (by omega))
  · split at he
    · simp only [List.mem_singleton] at he
      subst he
      exact column_lt hy (hcol _ (by omega))
    · simp at he

/-- Every byte of a row run inside the display exists (R127). -/
theorem rawHlineEdits_in_range {p : Params} {code : Code} {x y w : Nat} (hy : y < p.rawH) (hw : 1 ≤ w)
    (hx : x + w ≤ p.rawW) : ∀ e ∈ rawHlineEdits p code x y w, e.index < storageSize p := by
  intro e he
  unfold rawHlineEdits at he
  split at he
  · exact alignedRunEdits_in_range hy (by omega) e he
  · simp only [List.mem_cons] at he
    rcases he with rfl | he
    · exact column_lt hy (column_of_x (by omega))
    · by_cases hs : x % 8 + w ≤ 8
      · have h0 : w - (min 7 (x % 8 + w - 1) - x % 8 + 1) = 0 := by omega
        rw [h0] at he
        simp [alignedRunEdits] at he
      · exact alignedRunEdits_in_range hy (by omega) e he

/-- Every byte of a column run inside the display exists (R132). -/
theorem rawVlineEdits_in_range {p : Params} {code : Code} {x y h : Nat} (hx : x < p.rawW)
    (hy : y + h ≤ p.rawH) : ∀ e ∈ rawVlineEdits p code x y h, e.index < storageSize p := by
  intro e he
  simp only [rawVlineEdits, List.mem_map, List.mem_range] at he
  obtain ⟨j, hj, rfl⟩ := he
  exact byteIndex_lt hx (by omega)

/-- What normalise, reject and clip leave is a run of at least one pixel on the logical canvas (R124); only on a
canvas without columns, which R5 forbids, it is empty. -/
theorem clip_in_range {p : Params} {r : Rotation} {x y w : Int}
    (h : rejected p r (normalise x w).1 y (normalise x w).2 = false) :
    0 ≤ (clip p r (normalise x w).1 (normalise x w).2).1 ∧
      (1 ≤ (clip p r (normalise x w).1 (normalise x w).2).2 ∨
        width p r = 0 ∧ (clip p r (normalise x w).1 (normalise x w).2).2 = 0) ∧
      (clip p r (normalise x w).1 (normalise x w).2).1 + (clip p r (normalise x w).1 (normalise x w).2).2 ≤
        width p r ∧ 0 ≤ y ∧ y < height p r := by
  have hn : 0 ≤ (normalise x w).2 := by
    unfold normalise
    split <;> simp <;> omega
  generalize normalise x w = run at *
  simp only [rejected, Bool.or_eq_false_iff, decide_eq_false_iff_not] at h
  simp only [clip, clipLow, clipHigh]
  omega

theorem hlineEdits_in_range {p : Params} {r : Rotation} {x y w : Int} {code : Code} :
    ∀ e ∈ hlineEdits p r x y w code, e.index < storageSize p := by
  intro e he
  unfold hlineEdits at he
  simp only at he
  split at he
  · simp at he
  · rename_i hrej
    rw [Bool.not_eq_true] at hrej
    obtain ⟨h1, h2, h3, h4, h5⟩ := clip_in_range hrej
    generalize clip p r (normalise x w).1 (normalise x w).2 = c at *
    rcases h2 with h2 | ⟨hw, h2⟩
    · cases r <;> simp only [dispatchEdits, width, height] at he h3 h5
      · exact rawHlineEdits_in_range (by omega) (by omega) (by omega) e he
      · exact rawVlineEdits_in_range (by omega) (by omega) e he
      · exact rawHlineEdits_in_range (by omega) (by omega) (by omega) e he
      · exact rawVlineEdits_in_range (by omega) (by omega) e he
    · have hc : c.1 = 0 := by omega
      cases r <;> simp [dispatchEdits, width, h2, hc, rawHlineEdits, alignedRunEdits, rawVlineEdits] at he hw
      all_goals simp [hw] at he

theorem fillrectEdits_in_range {p : Params} {r : Rotation} {x y w h : Int} {code : Code} :
    ∀ e ∈ fillrectEdits p r x y w h code, e.index < storageSize p := by
  intro e he
  simp only [fillrectEdits, List.mem_flatMap] at he
  obtain ⟨yy, _, he⟩ := he
  exact hlineEdits_in_range e he

theorem rawhlineClipped_in_range {p : Params} {x y w : Int} {code : Code} :
    ∀ e ∈ rawhlineClipped p x y w code, e.index < storageSize p := by
  intro e he
  unfold rawhlineClipped at he
  split at he
  · simp at he
  · simp only at he
    split at he
    · simp at he
    · simp only [clipLow, clipHigh] at *
      exact rawHlineEdits_in_range (by omega) (by omega) (by omega) e he

theorem rawvlineClipped_in_range {p : Params} {x y h : Int} {code : Code} :
    ∀ e ∈ rawvlineClipped p x y h code, e.index < storageSize p := by
  intro e he
  unfold rawvlineClipped at he
  split at he
  · simp at he
  · simp only at he
    split at he
    · simp at he
    · simp only [clipLow, clipHigh] at *
      exact rawVlineEdits_in_range (by omega) (by omega) e he

theorem lineIndexes_in_range {p : Params} :
    ∀ i ∈ (List.range p.rawH).flatMap (lineIndexes p), i < storageSize p := by
  intro i hi
  simp only [List.mem_flatMap, List.mem_range, lineIndexes, List.mem_map] at hi
  obtain ⟨y, hy, k, hk, rfl⟩ := hi
  exact column_lt hy hk

/-- The masked writes of every drawing command lie in storage (R133). -/
theorem drawEdits_in_range (p : Params) (r : Rotation) (i : Instr) :
    ∀ e ∈ Instr.drawEdits p r i, e.index < storageSize p := by
  cases i with
  | setpix x y code => exact setpixEdits_in_range
  | fillrect x y w h code => exact fillrectEdits_in_range
  | hline x y w code => exact hlineEdits_in_range
  | rawhline x y w code => exact rawhlineClipped_in_range
  | rawvline x y h code => exact rawvlineClipped_in_range
  | _ => intro e he; simp [Instr.drawEdits] at he

/-- A drawing command is `State.draw` of its masked writes. -/
theorem exec_draws {i : Instr} (h : i.draws = true) (s : State) :
    exec i s = s.whenIdle (s.draw (i.drawEdits s.params s.rot)) := by
  cases i <;> first | rfl | simp [Instr.draws] at h

end Sys2Proof.Machine
end

