-- ==== Sys2Proof/Tests/Slice0.lean ====
section
/-! SUPPORT. Tests. Expected values are the spec's own (95_test_vectors.md and the examples of the rules), or
worked out by hand from the rules named. Witnesses show that the hypotheses of the statements can be met. -/

namespace Sys2Proof.Tests

open Sys2Proof Sys2Proof.Machine

/-- A display after reset whose storage holds these bytes. -/
def disp (w h : Nat) (bytes : List Byte) : State := State.resetWith (Params.sized w h) bytes

/-- The 16 by 8 display of the spec's examples, all white. -/
def white : State := disp 16 8 (List.replicate 16 0xFF#8)

/-- The white display under a rotation. -/
def whiteAt (r : Rotation) : State := { white with rot := r }

/-- The 8 by 2 display of 95_test_vectors.md part 3.5. -/
def small : State := disp 8 2 [0x0F#8, 0xA5#8]

def after (a : Answer) : Option State :=
  match a with
  | .next t => some t
  | _ => none

def storageAfter (a : Answer) : Option (List Byte) :=
  (after a).map fun t => (List.range (storageSize t.params)).map t.byte

def responsesAfter (a : Answer) : Option (List Response) := (after a).map State.responses

/-- White storage of 16 bytes but for these bytes. -/
def whiteBut (cs : List (Nat × Byte)) : List Byte :=
  (List.range 16).map fun i => ((cs.find? fun c => c.1 == i).map fun c => c.2).getD 0xFF#8

/-! Well-formedness: each check refuses a term out of its range (R51). -/

theorem test_wf_setpix_x : Instr.wf (.setpix 32768 0 .black) = false := by decide
theorem test_wf_setpix_y : Instr.wf (.setpix 0 (-32769) .black) = false := by decide
theorem test_wf_getpix_x : Instr.wf (.getpix (-32769) 0) = false := by decide
theorem test_wf_getpix_y : Instr.wf (.getpix 0 32768) = false := by decide
theorem test_wf_fillrect_x : Instr.wf (.fillrect 40000 0 0 0 .black) = false := by decide
theorem test_wf_fillrect_y : Instr.wf (.fillrect 0 40000 0 0 .black) = false := by decide
theorem test_wf_fillrect_w : Instr.wf (.fillrect 0 0 40000 0 .black) = false := by decide
theorem test_wf_fillrect_h : Instr.wf (.fillrect 0 0 0 32768 .black) = false := by decide
theorem test_wf_hline : Instr.wf (.hline 32768 0 0 .black) = false ∧ Instr.wf (.hline 0 32768 0 .black) = false ∧
    Instr.wf (.hline 0 0 (-32769) .black) = false := by decide
theorem test_wf_rawhline : Instr.wf (.rawhline 32768 0 0 .black) = false ∧
    Instr.wf (.rawhline 0 32768 0 .black) = false ∧ Instr.wf (.rawhline 0 0 (-32769) .black) = false := by decide
theorem test_wf_rawvline : Instr.wf (.rawvline 32768 0 0 .black) = false ∧
    Instr.wf (.rawvline 0 32768 0 .black) = false ∧ Instr.wf (.rawvline 0 0 (-32769) .black) = false := by decide
theorem test_wf_extremes : Instr.wf (.fillrect (-32768) 32767 (-32768) 32767 .diagr) = true := by decide

/-- R7: parameters outside R5, one for each check. -/
theorem test_params_wf : Params.default.wf = true ∧ (Params.sized 0 8).wf = false ∧
    (Params.sized 32768 8).wf = false ∧ (Params.sized 16 0).wf = false ∧ (Params.sized 16 256).wf = false ∧
    { Params.default with writeCommand := 0x00#8 }.wf = false ∧
    { Params.default with writeCommand := 0x03#8 }.wf = false ∧
    { Params.default with clearCommand := 0x00#8 }.wf = false ∧
    { Params.default with clearCommand := 0x06#8 }.wf = false ∧
    { Params.default with clearCommand := 0x01#8 }.wf = false ∧
    { Params.default with vcomMask := 0x00#8 }.wf = false ∧
    { Params.default with vcomMask := 0x18#8 }.wf = false := by decide

/-! Decoding: 95_test_vectors.md part 2, one word for every command at least. -/

theorem test_decode_setpix : decode 0x01050003000400000000#80 = .ok (.setpix 3 4 .fine) := by decide
theorem test_decode_setpix_diagr : decode 0x01070000000000000000#80 = .ok (.setpix 0 0 .diagr) := by decide
theorem test_decode_getpix : decode 0x0200FFFF000500000000#80 = .ok (.getpix (-1) 5) := by decide
theorem test_decode_clear_ignores : decode 0x0300123456789ABCDEF0#80 = .ok .clear := by decide
theorem test_decode_snapshot : decode 0x04000000000000000000#80 = .ok .snapshot := by decide
theorem test_decode_restore : decode 0x05000000000000000000#80 = .ok .restore := by decide
theorem test_decode_setrot : decode 0x06000007000000000000#80 = .ok (.setrot .rot3) := by decide
theorem test_decode_setrot_ignores : decode 0x0600FFFE000000000000#80 = .ok (.setrot .rot2) := by decide
theorem test_decode_fillrect :
    decode 0x1002FF9CFF9C7FFF7FFF#80 = .ok (.fillrect (-100) (-100) 32767 32767 .gray50) := by decide
theorem test_decode_hline : decode 0x11007FFF000080000000#80 = .ok (.hline 32767 0 (-32768) .black) := by decide
theorem test_decode_rawhline : decode 0x120100080004001E0000#80 = .ok (.rawhline 8 4 30 .white) := by decide
theorem test_decode_rawvline : decode 0x13000009FFFE00050000#80 = .ok (.rawvline 9 (-2) 5 .black) := by decide
theorem test_decode_refresh : decode 0x20000000000000000000#80 = .ok .refresh := by decide
theorem test_decode_cleartx : decode 0x21000000000000000000#80 = .ok .cleartx := by decide
theorem test_decode_illegal_opcodes : [0x00000000000000000000#80, 0x07000000000000000000#80,
    0x14000000000000000000#80, 0x22000000000000000000#80, 0xFF000000000000000000#80].all
      (fun w => decode w == .error .unknownOpcode) = true := by decide
theorem test_decode_illegal_reserved : decode 0x01080000000000000000#80 = .error .reservedBits ∧
    decode 0x01800000000000000000#80 = .error .reservedBits := by decide

/-- R179: a word that fails both checks is refused for its reserved bits. -/
theorem test_decode_priority : decode 0xFF080000000000000000#80 = .error .reservedBits := by decide

/-- R63: the words of programs P1 to P3. -/
theorem test_encode : encode (.fillrect 8 4 8 4 .gray50) = 0x10020008000400080004#80 ∧
    encode (.hline (-5) 2 100 .light) = 0x1104FFFB000200640000#80 ∧
    encode (.rawvline 11 0 5 .black) = 0x1300000B000000050000#80 ∧
    encode (.setrot .rot1) = 0x06000001000000000000#80 := by decide

theorem test_table_word : decodeTableWord 80 0x21000000000000000000 = some .cleartx := by decide

theorem test_rotation_modulo : rotationOfInt 7 = .rot3 ∧ rotationOfInt (-2) = .rot2 := by decide

theorem test_text : (Instr.hline 12 1 (-10) .black).text = "HLINE 12, 1, -10, 0" := by decide +kernel

/-! BitFrameBuffer. -/

/-- R82's first example: logical (2, 3) under rotation 1. -/
theorem test_setpix_rot1 :
    storageAfter (exec (.setpix 2 3 .black) (whiteAt .rot1)) = some (whiteBut [(5, 0xEF#8)]) := by decide +kernel

/-- 95 part 3.1: a dither code stores the bit of its raw position. -/
theorem test_setpix_dither :
    storageAfter (exec (.setpix 4 0 .dark) (disp 16 8 [])) = some (0x10#8 :: List.replicate 15 0x00#8) := by
  decide +kernel

theorem test_getpix_out : responsesAfter (exec (.getpix (-1) 5) white) = some [.pixel false] := by decide

/-- The bit and the index are those of 95 part 3.1, rotation 3, (2, 3): byte 10, mask 0x08. -/
theorem test_getpix_rot3 :
    responsesAfter (exec (.getpix 2 3) { disp 16 8 ((whiteBut [(10, 0xF7#8)])) with rot := .rot3 }) =
      some [.pixel false] := by decide +kernel

/-- R85; P3 step 9: padding bits become 1. -/
theorem test_clear : storageAfter (exec .clear (disp 12 5 [0x00#8, 0xA0#8])) = some (List.replicate 10 0xFF#8) := by
  decide +kernel

theorem test_snapshot : responsesAfter (exec .snapshot small) = some [.data [0x0F#8, 0xA5#8]] := by decide

/-- R157's rule for data-out: one byte of two taken. -/
theorem test_snapshot_waits :
    (after (exec .snapshot { small with dataOutReady := .upTo 1 })).map (fun t => (t.dataOut, t.seq, t.responses)) =
      some ([0x0F#8], .streaming 1, []) := by decide

/-- R89's example. -/
theorem test_restore :
    storageAfter (exec .restore { disp 8 2 [] with dataIn := [0x0F#8, 0xA5#8] }) = some [0x0F#8, 0xA5#8] := by
  decide +kernel

/-- R89: one byte short, it is stored and SMDC is stuck. -/
theorem test_restore_waits :
    (after (exec .restore { disp 8 2 [] with dataIn := [0x0F#8] })).map (fun t => (t.byte 0, t.seq, t.responses)) =
      some (0x0F#8, .restoring 1, []) := by decide +kernel

/-- R90's example: the geometry wires follow. -/
theorem test_setrot :
    (after (exec (.setrot .rot3) white)).map (fun t => (t.rot, t.widthOut, t.heightOut)) =
      some (.rot3, 8, 16) := by decide

/-! Dither: 95 part 3.2. -/

theorem test_fill_bytes :
    [Code.black, .white, .gray50, .dark, .light, .fine, .diag, .diagr].map
      (fun c => (List.range 4).map fun y => fillByte c y 0) =
    [[0x00#8, 0x00#8, 0x00#8, 0x00#8], [0xFF#8, 0xFF#8, 0xFF#8, 0xFF#8], [0x55#8, 0xAA#8, 0x55#8, 0xAA#8],
     [0x11#8, 0x00#8, 0x44#8, 0x00#8], [0xEE#8, 0xFF#8, 0xBB#8, 0xFF#8], [0xBB#8, 0x55#8, 0xEE#8, 0x55#8],
     [0xB6#8, 0x6D#8, 0xDB#8, 0xB6#8], [0xDB#8, 0x6D#8, 0xB6#8, 0xDB#8]] := by decide +kernel

/-- Codes 6 and 7 change with the byte column (C1). -/
theorem test_fill_columns : (List.range 3).map (fillByte .diag 0) = [0xB6#8, 0x6D#8, 0xDB#8] ∧
    (List.range 3).map (fillByte .diagr 2) = [0xB6#8, 0x6D#8, 0xDB#8] := by decide +kernel

/-! Rasterizer: 95 parts 3.3, 3.4, P5. -/

theorem test_hline_masks :
    storageAfter (exec (.hline 12 1 (-10) .black) white) = some (whiteBut [(2, 0x07#8), (3, 0xE0#8)]) := by
  decide +kernel

theorem test_hline_rot1_gray :
    storageAfter (exec (.hline 1 2 4 .gray50) (whiteAt .rot1)) = some (whiteBut [(5, 0xDF#8), (9, 0xDF#8)]) := by
  decide +kernel

theorem test_fillrect_seam :
    storageAfter (exec (.fillrect 2 1 20 2 .diagr) (disp 24 4 (List.replicate 12 0xFF#8))) =
      some [0xFF#8, 0xFF#8, 0xFF#8, 0x6F#8, 0xDB#8, 0xF6#8, 0xB7#8, 0x6D#8, 0xDB#8, 0xFF#8, 0xFF#8, 0xFF#8] := by
  decide +kernel

theorem test_fillrect_negative :
    storageAfter (exec (.fillrect 1 1 (-3) 2 .black) white) = some (whiteBut [(2, 0xFC#8), (4, 0xFC#8)]) ∧
    storageAfter (exec (.fillrect 1 1 3 (-2) .black) white) = some (whiteBut []) := by decide +kernel

theorem test_rawhline :
    storageAfter (exec (.rawhline (-3) 7 30 .gray50) (whiteAt .rot1)) =
      some (whiteBut [(14, 0xAA#8), (15, 0xAA#8)]) := by decide +kernel

theorem test_rawhline_negative :
    storageAfter (exec (.rawhline 3 1 (-10) .black) white) = some (whiteBut []) := by decide +kernel

theorem test_rawvline :
    storageAfter (exec (.rawvline 9 1 4 .fine) white) = some (whiteBut [(3, 0xFD#8), (7, 0xFD#8)]) := by
  decide +kernel

theorem test_rawvline_clipped :
    storageAfter (exec (.rawvline 9 (-2) 5 .black) white) =
      some (whiteBut [(1, 0xFD#8), (3, 0xFD#8), (5, 0xFD#8)]) := by decide +kernel

/-! ProtocolEncoder: 95 part 3.5. -/

theorem test_refresh :
    (after (exec .refresh small)).map (fun t => (t.events, t.vcom)) =
      some ([.txBegin, .cs true, .byte 0x03#8, .byte 0x01#8, .byte 0x0F#8, .byte 0x00#8, .byte 0x02#8, .byte 0xA5#8,
        .byte 0x00#8, .byte 0x00#8, .cs false, .txEnd], false) := by decide

/-- R157: the control byte was accepted, so the flag is toggled; the select line stays HIGH. -/
theorem test_refresh_stalls :
    (after (exec .refresh { small with transport := .upTo 3 })).map (fun t => (t.events, t.vcom, t.busy, t.selectHigh)) =
      some ([.txBegin, .cs true, .byte 0x03#8], false, true, true) := by decide

theorem test_cleartx :
    (after (exec .cleartx { small with vcom := false })).map (fun t => (t.events, t.vcom, t.byte 0, t.byte 1)) =
      some ([.txBegin, .cs true, .byte 0x04#8, .byte 0x00#8, .cs false, .txEnd], true, 0xFF#8, 0xFF#8) := by
  decide +kernel

theorem test_cleartx_stalls :
    (after (exec .cleartx { small with transport := .upTo 3 })).map (fun t => (t.byte 1, t.vcom, t.busy)) =
      some (0xFF#8, true, true) := by decide +kernel

/-! The step. -/

theorem test_step_idle : after (step State.reset) = some State.reset := by decide

theorem test_step_first :
    (after (step (State.reset.withFetchWord 80 0x06000003000000000000))).map (fun t => (t.rot, t.inputs)) =
      some (.rot3, []) := by decide

theorem test_step_illegal : responsesAfter (step (State.reset.withFetchWord 80 0)) = some [.illegal] := by decide

/-- R157: once the host offers the missing byte, the RESTORE completes. -/
theorem test_step_resumes :
    (after (step { disp 8 2 [0x0F#8] with seq := .restoring 1, dataIn := [0xA5#8] })).map
      (fun t => (t.byte 0, t.byte 1, t.busy, t.responses)) = some (0x0F#8, 0xA5#8, false, [.done]) := by
  decide +kernel

/-- R153, R157: a CLEARTX held up before its last two events was toggled already and does not toggle again. -/
theorem test_step_resumes_cleartx :
    (after (exec .cleartx { small with transport := .upTo 4 })).bind (fun t =>
      (after (step { t with transport := .upTo 2 })).map fun u => (t.vcom, u.vcom, u.busy, u.responses)) =
      some (false, false, false, [.done]) := by decide +kernel

/-- R88: the byte not yet taken is sent, DATA has both. -/
theorem test_step_resumes_snapshot :
    (after (step { small with seq := .streaming 1, dataOut := [0x0F#8] })).map (fun t => (t.dataOut, t.responses)) =
      some ([0x0F#8, 0xA5#8], [.data [0x0F#8, 0xA5#8]]) := by decide +kernel

/-- R203: a run that is over has a result, a stuck one has none. -/
theorem test_result : (small.result.map RunResult.storage) = some [0x0F#8, 0xA5#8] ∧
    { small with seq := .streaming 0 }.result = none := by decide

/-! Witnesses of the statements' hypotheses, one for each statement that has some, at the edges of its clauses. -/

theorem test_witness_DecodeOfEncode : Instr.wf (.fillrect (-32768) 32767 0 (-1) .fine) = true := by decide

theorem test_witness_DecodedIsWellFormed : ∃ i, decode 0x11007FFF000080000000#80 = .ok i :=
  ⟨.hline 32767 0 (-32768) .black, by decide⟩

/-- Each of the twelve opcodes with `rsv` zero. -/
theorem test_witness_DecodeReadsRows :
    [0x01#8, 0x02#8, 0x03#8, 0x04#8, 0x05#8, 0x06#8, 0x10#8, 0x11#8, 0x12#8, 0x13#8, 0x20#8, 0x21#8].all
      (fun o => fieldRsv (o ++ 0#72) == 0#5 && fieldOp (o ++ 0#72) == o) = true := by decide

theorem test_witness_DecodeRejects : fieldRsv 0x01080000000000000000#80 ≠ 0#5 ∧
    fieldRsv 0x07000000000000000000#80 = 0#5 ∧ fieldRsv 0x21000000000000000000#80 = 0#5 := by decide

theorem test_witness_StepRunsDecoded :
    let s := white.present 0x03000000000000000000#80
    s.params.wf = true ∧ s.busy = false ∧ s.inputs = .command 0x03000000000000000000#80 :: [] ∧
      decode 0x03000000000000000000#80 = .ok .clear := by decide

/-- Opcodes just outside the twelve, and reserved bits on a legal opcode. -/
theorem test_witness_StepAnswersIllegal :
    [0x00000000000000000000#80, 0x07000000000000000000#80, 0x0F000000000000000000#80, 0x22000000000000000000#80,
      0x01080000000000000000#80].all (fun w =>
      (white.present w).params.wf && !(white.present w).busy && (white.present w).inputs == [.command w] &&
      decide (fieldRsv w ≠ 0#5 ∨ (fieldOp w).toNat ∉
        [0x01, 0x02, 0x03, 0x04, 0x05, 0x06, 0x10, 0x11, 0x12, 0x13, 0x20, 0x21])) = true := by decide

theorem test_witness_StepIdleKeepsState :
    white.params.wf = true ∧ white.busy = false ∧ white.inputs = [] := by decide

theorem test_witness_BusyAcceptsNothing :
    { small with seq := .streaming 1 }.busy = true ∧
      ∃ t, step { small with seq := .streaming 1 } = .next t := ⟨by decide, _, rfl⟩

theorem test_witness_BusyRefusesCommand : { small with seq := .restoring 0 }.busy = true := by decide

theorem test_witness_StepRefusesParameters : (disp 16 256 []).params.wf = false := by decide

theorem test_witness_ResetValues : (0 : Nat) < storageSize Params.default ∧ [0x5A#8][0]? = some 0x5A#8 := by decide

theorem test_witness_ResetFromIdle :
    let s := { white with rot := .rot2, inputs := [.reset [0x5A#8]] }
    s.params.wf = true ∧ s.busy = false ∧ s.inputs = .reset [0x5A#8] :: [] ∧
      15 < storageSize s.params ∧ (0 < storageSize s.params ∧ [0x5A#8][0]? = some 0x5A#8) := by decide

/-- A frame whose last event is not accepted, a RESTORE without a byte, a SNAPSHOT at its last byte. -/
theorem test_witness_ResetWhileStalledRefused :
    [{ small with seq := .transmitting [.emit .txEnd], transport := .upTo 0 }, { small with seq := .restoring 0 },
      { small with seq := .streaming 1, dataOutReady := .upTo 0 }].all (fun s =>
        s.params.wf && s.stalled && { s with inputs := [.reset []] }.stalled &&
        { s with inputs := [.reset []] }.inputs == .reset [] :: []) = true := by decide

theorem test_witness_ResetMeetsInvariant : Params.default.wf = true := by decide

/-- The invariant holds at reset, and in the middle of a frame. -/
theorem test_witness_StepKeepsInvariant :
    State.reset.Inv ∧
    (∃ t, step State.reset = .next t) ∧
    { small with busOpen := true, selectHigh := true,
                 seq := .transmitting [.emit (.byte 0x00#8), .toggle, .emit (.cs false), .emit .txEnd] }.Inv :=
  ⟨by decide, ⟨_, rfl⟩, by decide⟩

/-- In bounds at the far corner, out of bounds one past it; these states also meet the hypotheses of the drawing
statements HlineDrawsRun, FillrectDrawsRectangle, RawhlineDrawsRun and RawvlineDrawsRun, and of
ClearWhitensStorage. -/
theorem test_witness_SetpixStoresOnePixel : white.busy = false ∧ white.storage.wf = true ∧
    inBounds white.params white.rot 15 7 = true ∧ inBounds white.params white.rot 16 7 = false ∧
    inBounds white.params white.rot 0 (-1) = false := by decide

theorem test_witness_GetpixReadsOnePixel : (whiteAt .rot1).busy = false ∧
    inBounds white.params .rot1 7 15 = true ∧ inBounds white.params .rot1 8 0 = false := by decide

theorem test_witness_GetpixAfterSetpix :
    ∃ t, white.storage.wf = true ∧ imageOf white.params white.rot 15 7 15 7 ∧
      exec (.setpix 15 7 .black) white = .next t :=
  ⟨_, by decide, by unfold imageOf; decide, rfl⟩

theorem test_witness_ClearWhitensStorage : small.busy = false ∧ small.storage.wf = true := by decide

/-- All `N` bytes taken exactly, and one short. -/
theorem test_witness_SnapshotStreamsStorage :
    small.busy = false ∧ (Readiness.upTo 2).covers (storageSize small.params) = true ∧
      1 < storageSize small.params ∧ { small with dataOutReady := .upTo 1 }.dataOutReady = .upTo 1 := by decide

/-- `N` bytes offered exactly, and one short. -/
theorem test_witness_RestoreLoadsStorage :
    let s := { small with dataIn := [0x01#8, 0x02#8] }
    let u := { small with dataIn := [0x01#8] }
    s.busy = false ∧ s.storage.wf = true ∧ storageSize s.params ≤ s.dataIn.length ∧
      u.busy = false ∧ u.storage.wf = true ∧ u.dataIn.length < storageSize u.params := by decide

/-- The rest offered exactly, and none of it. -/
theorem test_witness_RestoreCompletesLater :
    let s := { small with seq := .restoring 1, dataIn := [0x02#8] }
    let u := { small with seq := .restoring 1 }
    s.params.wf = true ∧ s.storage.wf = true ∧ s.seq = .restoring 1 ∧ 1 < storageSize s.params ∧
      storageSize s.params - 1 ≤ s.dataIn.length ∧ u.dataIn.length < storageSize u.params - 1 ∧
      u.resetAsserted = false := by decide

/-- The rest taken exactly, and one byte of two. -/
theorem test_witness_SnapshotCompletesLater :
    let s := { small with seq := .streaming 1, dataOutReady := .upTo 1 }
    let u := { small with seq := .streaming 0, dataOutReady := .upTo 1 }
    s.params.wf = true ∧ s.seq = .streaming 1 ∧ 1 < storageSize s.params ∧
      s.dataOutReady.covers (storageSize s.params - 1) = true ∧ 1 < storageSize u.params - 0 ∧
      u.seq = .streaming 0 ∧ u.dataOutReady = .upTo 1 ∧ u.resetAsserted = false := by decide

theorem test_witness_RestoreOfSnapshot :
    ∃ s' t', small.Inv ∧ { disp 8 2 [] with dataIn := [0x0F#8, 0xA5#8, 0x77#8] }.Inv ∧
      exec .snapshot small = .next s' ∧ s'.responses = small.responses ++ [.data [0x0F#8, 0xA5#8]] ∧
      exec .restore { disp 8 2 [] with dataIn := [0x0F#8, 0xA5#8, 0x77#8] } = .next t' :=
  ⟨_, _, by decide, by decide, rfl, by decide, rfl⟩

theorem test_witness_SetrotWritesRotation : white.busy = false ∧
    fieldRsv 0x0600FFFE000000000000#80 = 0#5 ∧ fieldOp 0x0600FFFE000000000000#80 = 0x06#8 := by decide

theorem test_witness_RotateIsBijection : inBounds white.params .rot3 7 15 = true ∧
    (0 : Int) ≤ 15 ∧ (15 : Int) < white.params.rawW ∧ (0 : Int) ≤ 7 ∧ (7 : Int) < white.params.rawH := by decide

theorem test_witness_BitWriteIsOrAnd : white.storage.wf = true := by decide

/-- A run to the end of the last row. -/
theorem test_witness_RowWriterBits : white.storage.wf = true ∧ 7 < white.params.rawH ∧ 1 ≤ 13 ∧
    3 + 13 - 1 < white.params.rawW := by decide

theorem test_witness_ColumnWriterBits : white.storage.wf = true ∧ 15 < white.params.rawW ∧ 1 ≤ 8 ∧
    0 + 8 - 1 < white.params.rawH := by decide

theorem test_witness_HlineDrawsRun : (whiteAt .rot2).busy = false ∧ (whiteAt .rot2).storage.wf = true ∧
    onRun 12 (-10) 3 ∧ imageOf white.params .rot2 3 1 12 6 := by
  unfold onRun imageOf
  decide

theorem test_witness_FillrectDrawsRectangle : (whiteAt .rot1).busy = false ∧
    (whiteAt .rot1).storage.wf = true ∧ onRun 0 8 7 ∧ imageOf white.params .rot1 7 15 0 7 := by
  unfold onRun imageOf
  decide

theorem test_witness_RawhlineDrawsRun : (whiteAt .rot1).busy = false ∧ (whiteAt .rot1).storage.wf = true ∧
    (-3 : Int) ≤ (15 : Nat) ∧ ((15 : Nat) : Int) ≤ -3 + 30 - 1 ∧ 15 < white.params.rawW ∧
    7 < white.params.rawH := by decide

theorem test_witness_RawvlineDrawsRun : (whiteAt .rot3).busy = false ∧ (whiteAt .rot3).storage.wf = true ∧
    (-2 : Int) ≤ (2 : Nat) ∧ ((2 : Nat) : Int) ≤ -2 + 5 - 1 ∧ 9 < white.params.rawW ∧ 2 < white.params.rawH := by
  decide

theorem test_witness_HlineEqualsSetpixes : white.storage.wf = true ∧
    [3, 2, 1].Perm ((List.range (normalise 3 (-3)).2.toNat).map fun j => (normalise 3 (-3)).1 + (j : Int)) := by
  decide +kernel

theorem test_witness_HlineNegativeWidth : (-1 : Int) < 0 := by decide

/-- Each drawing command; the last bit of a 12-pixel row is padding, and byte 10 lies outside storage. -/
theorem test_witness_DrawingKeepsPadding :
    ∃ t, Instr.draws (.hline 0 4 12 .black) = true ∧ (disp 12 5 []).storage.wf = true ∧
      exec (.hline 0 4 12 .black) (disp 12 5 []) = .next t ∧ 4 < (disp 12 5 []).params.rawH ∧
      1 < rowBytes (disp 12 5 []).params ∧ (disp 12 5 []).params.rawW ≤ 8 * 1 + 4 ∧
      storageSize (disp 12 5 []).params ≤ 10 :=
  ⟨_, by decide, by decide, rfl, by decide, by decide, by decide, by decide⟩

theorem test_witness_RedrawIsStable :
    ∃ t u, Instr.draws (.rawvline 0 0 2 .diag) = true ∧ small.storage.wf = true ∧
      exec (.rawvline 0 0 2 .diag) small = .next t ∧ exec (.rawvline 0 0 2 .diag) t = .next u :=
  ⟨_, _, by decide, by decide, rfl, rfl⟩

/-- Exactly as many events as the frame has. -/
theorem test_witness_RefreshSendsFrame : small.busy = false ∧
    (Readiness.upTo 12).covers (6 + small.params.rawH * (rowBytes small.params + 2)) = true ∧
    Readiness.always.covers (6 + small.params.rawH * (rowBytes small.params + 2)) = true := by decide

theorem test_witness_CleartxClearsAndSends : small.busy = false ∧ small.storage.wf = true ∧
    (Readiness.upTo 6).covers 6 = true := by decide

/-- No event, the control byte just not and just accepted, and all but the last event. -/
theorem test_witness_RefreshStalls :
    [0, 2, 3, 11].all (fun n => !small.busy && { small with transport := .upTo n }.transport == .upTo n &&
      decide (n < 6 + small.params.rawH * (rowBytes small.params + 2))) = true := by decide

theorem test_witness_CleartxStalls :
    [0, 3, 4, 5].all (fun n => !small.busy && small.storage.wf &&
      { small with transport := .upTo n }.transport == .upTo n && decide (n < 6)) = true := by decide

/-- One state for each of the three ports. -/
theorem test_witness_StalledStaysStuck :
    [{ small with seq := .transmitting [.emit .txEnd], transport := .upTo 0 }, { small with seq := .restoring 1 },
      { small with seq := .streaming 0, dataOutReady := .upTo 0 }].all (fun s =>
        s.params.wf && s.stalled && !s.resetAsserted) = true := by decide

/-- Resumed to the end, and held up again one event before it. -/
theorem test_witness_StalledRefreshResumes :
    (∃ t u, small.params.wf = true ∧ 5 < 6 + small.params.rawH * (rowBytes small.params + 2) ∧
      exec .refresh { small with transport := .upTo 5 } = .next t ∧
      exec .refresh (small.withTransport (Readiness.always.after 5)) = .next u ∧ u.busy = false) ∧
    ∃ u, exec .refresh (small.withTransport ((Readiness.upTo 6).after 5)) = .next u ∧ u.busy = true ∧
      small.resetAsserted = false :=
  ⟨⟨_, _, by decide, by decide, rfl, rfl, by decide⟩, _, rfl, by decide, by decide⟩

/-- Resumed exactly to the end, and held up again before the toggle. -/
theorem test_witness_StalledCleartxResumes :
    (∃ t u, small.params.wf = true ∧ 0 < 6 ∧ exec .cleartx { small with transport := .upTo 0 } = .next t ∧
      exec .cleartx (small.withTransport ((Readiness.upTo 6).after 0)) = .next u ∧ u.busy = false) ∧
    ∃ u, exec .cleartx (small.withTransport ((Readiness.upTo 3).after 0)) = .next u ∧ u.busy = true ∧
      small.resetAsserted = false :=
  ⟨⟨_, _, by decide, by decide, rfl, rfl, by decide⟩, _, rfl, by decide, by decide⟩

/-- In the middle of a frame, the select line HIGH. -/
theorem test_witness_FramesAreBracketed :
    { small with busOpen := true, selectHigh := true, seq := .transmitting [.emit (.cs false), .emit .txEnd] }.Inv := by
  decide

/-- What `framed` refuses: a frame without its toggle, a second toggle, a second transaction, bytes outside select. -/
theorem test_framed_refuses :
    framed false false [.emit .txBegin, .emit (.cs true), .emit (.byte 0x00#8), .emit (.cs false), .emit .txEnd] =
      false ∧
    framed true true [.toggle, .toggle, .emit (.cs false), .emit .txEnd] = false ∧
    framed true false [.emit .txEnd, .emit .txBegin] = false ∧
    framed true false [.emit (.byte 0x00#8), .emit .txEnd] = false ∧
    framed false true [] = false := by decide

/-- A frame that completes, another command, and an illegal word. -/
theorem test_witness_VcomTogglesOncePerFrame :
    [0x20000000000000000000#80, 0x03000000000000000000#80, 0x22000000000000000000#80].all (fun w =>
      (small.present w).params.wf && !(small.present w).busy && (small.present w).inputs == [.command w]) = true ∧
    (∃ t, step (small.present 0x20000000000000000000#80) = .next t ∧ t.busy = false ∧
      decode 0x20000000000000000000#80 = .ok .refresh) ∧
    (∃ t, step (small.present 0x03000000000000000000#80) = .next t ∧
      decode 0x03000000000000000000#80 ≠ .ok .refresh ∧ decode 0x03000000000000000000#80 ≠ .ok .cleartx) ∧
    ∃ t, step (small.present 0x22000000000000000000#80) = .next t ∧
      decode 0x22000000000000000000#80 ≠ .ok .refresh ∧ decode 0x22000000000000000000#80 ≠ .ok .cleartx :=
  ⟨by decide, ⟨_, rfl, by decide, by decide⟩, ⟨_, rfl, by decide, by decide⟩, _, rfl, by decide, by decide⟩

theorem test_witness_VcomAfterFrames :
    ∃ t, small.transport = .always ∧ execAll [.refresh, .clear, .cleartx, .refresh] small = .next t :=
  ⟨_, by decide, rfl⟩

/-- A command that completes and one that waits. -/
theorem test_witness_OnlyEncTransmits :
    (Instr.snapshot ≠ .refresh ∧ Instr.snapshot ≠ .cleartx ∧ ∃ t, exec .snapshot small = .next t) ∧
    (Instr.restore ≠ .refresh ∧ Instr.restore ≠ .cleartx ∧ ∃ t, exec .restore small = .next t) :=
  ⟨⟨by decide, by decide, _, rfl⟩, by decide, by decide, _, rfl⟩

theorem test_witness_OnlySetrotRotates :
    (∀ r, Instr.cleartx ≠ .setrot r) ∧ ∃ t, exec .cleartx small = .next t :=
  ⟨fun _ h => (by cases h), _, rfl⟩

theorem test_witness_ReadersKeepStorage :
    (∃ t, exec .snapshot small = .next t) ∧ (∃ t, exec .refresh small = .next t) ∧
    (∃ t, exec (.getpix 0 0) small = .next t) ∧ ∃ t, exec (.setrot .rot1) small = .next t :=
  ⟨⟨_, rfl⟩, ⟨_, rfl⟩, ⟨_, rfl⟩, _, rfl⟩

theorem test_witness_DataPortsHaveOneUser :
    (Instr.snapshot ≠ .restore ∧ ∃ t, exec .snapshot small = .next t) ∧
    (Instr.restore ≠ .snapshot ∧ ∃ t, exec .restore small = .next t) :=
  ⟨⟨by decide, _, rfl⟩, by decide, _, rfl⟩

/-- Clauses: waiting, PIXEL, DATA, DONE. -/
theorem test_witness_OneResponsePerCommand :
    (∃ t, exec .restore small = .next t ∧ t.busy = true) ∧
    (∃ t, exec (.getpix 99 0) small = .next t ∧ t.busy = false) ∧
    (∃ t, exec .snapshot small = .next t ∧ t.busy = false) ∧
    ∃ t, exec .cleartx small = .next t ∧ t.busy = false :=
  ⟨⟨_, rfl, by decide⟩, ⟨_, rfl, by decide⟩, ⟨_, rfl, by decide⟩, _, rfl, by decide⟩

end Sys2Proof.Tests
end

section
/-! PROOFS. The scope of the machine (00_scope.md): which commands touch the Transport's side of the state, and
that no step is taken on parameters outside R5. -/

namespace Sys2Proof.Machine

open Sys2Proof

/-! SNAPSHOT, RESTORE and GETPIX: one equation each for what they answer, which is never a fault. -/

/-- The bytes SNAPSHOT sends next exist: it is granted no more than are left. -/
theorem streamed_indexes_in_range (s : State) (n : Nat) :
    ∀ i ∈ List.range' n (s.dataOutReady.grant (storageSize s.params - n)), i < storageSize s.params := by
  intro i hi
  have hk := s.dataOutReady.grant_le (storageSize s.params - n)
  have hi' := List.mem_range'_1.mp hi
  omega

/-- `s` after `k` bytes of storage from index `n` on have left on data-out (R88). -/
def State.sent (s : State) (n k : Nat) : State :=
  { s with
    dataOut := s.dataOut ++ (List.range' n k).map s.byte
    dataOutReady := s.dataOutReady.spend k }

/-- SNAPSHOT from byte `n` on (R88) faults at no index: it sends what the host takes, then waits or answers all of
storage. -/
theorem State.streamFrom_eq (s : State) (n : Nat) :
    s.streamFrom n =
      let k := s.dataOutReady.grant (storageSize s.params - n)
      .next (if n + k < storageSize s.params then (s.sent n k).wait (.streaming (n + k))
        else (s.sent n k).finish (.data ((List.range (storageSize s.params)).map s.byte))) := by
  have hall : ∀ i ∈ List.range (storageSize s.params), i < storageSize s.params := fun _ => List.mem_range.mp
  simp only [State.streamFrom, State.fetch_eq (streamed_indexes_in_range s n), State.fetch_eq hall, withBytes_ok]
  exact (apply_ite Host.Outcome.next _ _ _).symm

/-- The bytes offered to a RESTORE at byte `n`: no more than are left to store (R89). -/
def State.offered (s : State) (n : Nat) : List Byte := s.dataIn.take (storageSize s.params - n)

/-- The payload bytes offered have indexes that exist. -/
theorem offered_edits_in_range (s : State) (n : Nat) :
    ∀ e ∈ payloadEdits n (s.offered n), e.index < storageSize s.params := by
  have hlen : (s.offered n).length ≤ storageSize s.params - n := List.length_take_le _ _
  by_cases hn : n ≤ storageSize s.params
  · exact payloadEdits_in_range (by omega)
  · have hnil : s.offered n = [] := List.length_eq_zero_iff.mp (by omega)
    simp [hnil, payloadEdits]

/-- `s` after the bytes offered are stored from index `n` on and gone from data-in (R89). -/
def State.loaded (s : State) (n : Nat) : State :=
  { s with
    storage := s.storage.edits (payloadEdits n (s.offered n))
    dataIn := s.dataIn.drop (storageSize s.params - n) }

/-- RESTORE from byte `n` on (R89) faults at no index: it stores what is offered, then waits or answers `DONE`. -/
theorem State.loadFrom_eq (s : State) (n : Nat) :
    s.loadFrom n =
      .next (if n + (s.offered n).length < storageSize s.params then
          (s.loaded n).wait (.restoring (n + (s.offered n).length))
        else (s.loaded n).finish .done) := by
  change andThen (s.store (payloadEdits n (s.offered n))) _ = _
  rw [State.store_eq (offered_edits_in_range s n), andThen_next]
  exact (apply_ite Host.Outcome.next _ _ _).symm

/-- GETPIX (R84) faults at no index: it answers the stored pixel in bounds and `OOB_READ` out of bounds. -/
theorem execGetpix_eq (x y : Int) (s : State) :
    execGetpix x y s = s.whenIdle (.next (s.respond (.pixel
      (if inBounds s.params s.rot x y then s.pixel (rawX s.params s.rot x y) (rawY s.params s.rot x y)
        else s.params.oobRead)))) := by
  unfold execGetpix
  split
  case isTrue hin =>
    obtain ⟨hx, hy, _⟩ := rotate_in_range hin
    have hfetch : ∀ i ∈ [byteIndex s.params (rawX s.params s.rot x y) (rawY s.params s.rot x y)],
        i < storageSize s.params := by simpa using byteIndex_lt hx hy
    rw [State.fetch_eq hfetch]
    rfl
  case isFalse => rfl

/-! The Transport's side of the state. -/

/-- Nothing the Transport sees differs (R2): the events, the select line, the bus, the readiness, and the bias flag
that only a frame toggles (R155). -/
structure State.SameTransportSide (s t : State) : Prop where
  events : t.events = s.events
  selectHigh : t.selectHigh = s.selectHigh
  busOpen : t.busOpen = s.busOpen
  vcom : t.vcom = s.vcom
  transport : t.transport = s.transport

/-- A command that only draws, CLEAR among them, keeps the Transport's side. -/
theorem sameTransportSide_of_draw {s t : State} {es : List Edit} (h : s.whenIdle (s.draw es) = .next t) :
    s.SameTransportSide t := by
  obtain ⟨_, hdraw⟩ := State.whenIdle_eq_next.mp h
  obtain ⟨_, rfl⟩ := State.draw_eq_next hdraw
  exact ⟨rfl, rfl, rfl, rfl, rfl⟩

/-- GETPIX keeps the Transport's side. -/
theorem sameTransportSide_of_getpix {x y : Int} {s t : State} (h : execGetpix x y s = .next t) :
    s.SameTransportSide t := by
  rw [execGetpix_eq] at h
  obtain ⟨_, ⟨⟩⟩ := State.whenIdle_eq_next.mp h
  exact ⟨rfl, rfl, rfl, rfl, rfl⟩

/-- SNAPSHOT keeps the Transport's side from any byte on, waiting or completing. -/
theorem sameTransportSide_of_streamFrom {s t : State} {n : Nat} (h : s.streamFrom n = .next t) :
    s.SameTransportSide t := by
  rw [State.streamFrom_eq] at h
  cases h
  split <;> exact ⟨rfl, rfl, rfl, rfl, rfl⟩

/-- RESTORE keeps the Transport's side from any byte on, waiting or completing. -/
theorem sameTransportSide_of_loadFrom {s t : State} {n : Nat} (h : s.loadFrom n = .next t) :
    s.SameTransportSide t := by
  rw [State.loadFrom_eq] at h
  cases h
  split <;> exact ⟨rfl, rfl, rfl, rfl, rfl⟩

/-- SETROT keeps the Transport's side. -/
theorem sameTransportSide_of_setrot {r : Rotation} {s t : State} (h : execSetrot r s = .next t) :
    s.SameTransportSide t := by
  obtain ⟨_, ⟨⟩⟩ := State.whenIdle_eq_next.mp h
  exact ⟨rfl, rfl, rfl, rfl, rfl⟩

/-- The ten commands that send no frame keep the Transport's side (R2, R155, R194). -/
theorem exec_sameTransportSide {i : Instr} {s t : State} (hr : i ≠ .refresh) (hc : i ≠ .cleartx)
    (h : exec i s = .next t) : s.SameTransportSide t := by
  cases i with
  | setpix | clear | fillrect | hline | rawhline | rawvline => exact sameTransportSide_of_draw h
  | getpix x y => exact sameTransportSide_of_getpix h
  | snapshot => exact sameTransportSide_of_streamFrom (State.whenIdle_eq_next.mp h).2
  | restore => exact sameTransportSide_of_loadFrom (State.whenIdle_eq_next.mp h).2
  | setrot r => exact sameTransportSide_of_setrot h
  | refresh => exact absurd rfl hr
  | cleartx => exact absurd rfl hc

/-- Settles O53, by cases on the command: none of the ten touches the Transport's side of the state. -/
theorem onlyEncTransmits : Obligations.OnlyEncTransmits := by
  intro i s t hr hc h
  obtain ⟨hevents, hselect, hbus, hvcom, htransport⟩ := exec_sameTransportSide hr hc h
  exact ⟨hevents, hselect, hbus, hvcom, htransport⟩

/-! Parameters outside R5. -/

/-- On parameters outside R5 the work of a step is the refusal, busy or idle and whatever the host presents (R7). -/
theorem State.work_of_params_not_wf {s : State} (h : s.params.wf = false) :
    s.work = .answered (.refused .parametersOutOfRange) := by
  simp [State.work, h]

/-- Settles O11: the parameters are looked at before anything else. -/
theorem stepRefusesParameters : Obligations.StepRefusesParameters := by
  intro s h
  rw [step, State.work_of_params_not_wf h]

end Sys2Proof.Machine
end

section
/-! PROOFS. The state (10_state.md): what a command and a step can answer, what they leave as it was, that every step
keeps the invariant, and the reset values. -/

namespace Sys2Proof.Machine

open Sys2Proof

/-! What a command can answer: one inversion for each operation that several commands share, then one for `exec`. -/

/-- SNAPSHOT from byte `n` on that answers a next state has sent some bytes, and waits before the end or has given
`DATA` (R88). -/
theorem State.streamFrom_cases {s t : State} {n : Nat} (h : s.streamFrom n = .next t) :
    ∃ k, (n + k < storageSize s.params ∧ t = (s.sent n k).wait (.streaming (n + k))) ∨
      ∃ bytes, t = (s.sent n k).finish (.data bytes) := by
  rw [State.streamFrom_eq] at h
  cases h
  refine ⟨s.dataOutReady.grant (storageSize s.params - n), ?_⟩
  split
  case isTrue hlt => exact .inl ⟨hlt, rfl⟩
  case isFalse => exact .inr ⟨_, rfl⟩

/-- RESTORE from byte `n` on that answers a next state has stored the bytes offered, and waits before the end or has
answered `DONE` (R89). -/
theorem State.loadFrom_cases {s t : State} {n : Nat} (h : s.loadFrom n = .next t) :
    (∃ m, m < storageSize s.params ∧ t = (s.loaded n).wait (.restoring m)) ∨ t = (s.loaded n).finish .done := by
  rw [State.loadFrom_eq] at h
  cases h
  split
  case isTrue hlt => exact .inl ⟨_, hlt, rfl⟩
  case isFalse => exact .inr rfl

/-- `s` with the storage white, as CLEARTX leaves it before its frame (R153). -/
def State.whitened (s : State) : State := { s with storage := s.storage.edits (whiteEdits s.params) }

/-- What a command does to the state `s` of an idle SMDC, by the command. -/
inductive State.Executed (s : State) : Instr → State → Prop
  /-- The drawing commands and CLEAR: masked writes inside storage, then `DONE` (R85, R133). -/
  | drawn {i : Instr} {es : List Edit} (hi : i.draws = true ∨ i = .clear)
      (hes : ∀ e ∈ es, e.index < storageSize s.params) :
      s.Executed i ({ s with storage := s.storage.edits es }.respond .done)
  /-- GETPIX (R84). -/
  | got {x y : Int} {b : Bool} : s.Executed (.getpix x y) (s.respond (.pixel b))
  /-- SNAPSHOT (R88). -/
  | streamed {t : State} (h : s.streamFrom 0 = .next t) : s.Executed .snapshot t
  /-- RESTORE (R89). -/
  | restored {t : State} (h : s.loadFrom 0 = .next t) : s.Executed .restore t
  /-- SETROT (R90). -/
  | rotated {r : Rotation} : s.Executed (.setrot r) ({ s with rot := r }.respond .done)
  /-- REFRESH (R152). -/
  | refreshed : s.Executed .refresh (runTx (refreshOps s) s)
  /-- CLEARTX (R153). -/
  | cleared : s.Executed .cleartx (runTx (clearOps s.whitened) s.whitened)

/-- Masked writes with `DONE`, on an idle SMDC, are what a drawing command or CLEAR does. -/
theorem State.Executed.of_draw {i : Instr} {s t : State} {es : List Edit} (hi : i.draws = true ∨ i = .clear)
    (h : s.whenIdle (s.draw es) = .next t) : s.busy = false ∧ s.Executed i t := by
  obtain ⟨hidle, hdraw⟩ := State.whenIdle_eq_next.mp h
  obtain ⟨hes, rfl⟩ := State.draw_eq_next hdraw
  exact ⟨hidle, .drawn hi hes⟩

/-- The inversion of `exec`: a command that answers a next state was given to an idle SMDC and did what
`State.Executed` says. -/
theorem exec_eq_next {i : Instr} {s t : State} (h : exec i s = .next t) : s.busy = false ∧ s.Executed i t := by
  cases i with
  | setpix | fillrect | hline | rawhline | rawvline => exact State.Executed.of_draw (.inl rfl) h
  | clear => exact State.Executed.of_draw (.inr rfl) h
  | getpix x y =>
    obtain ⟨hidle, ⟨⟩⟩ := State.whenIdle_eq_next.mp ((execGetpix_eq x y s).symm.trans h)
    exact ⟨hidle, .got⟩
  | snapshot => exact (State.whenIdle_eq_next.mp h).imp_right .streamed
  | restore => exact (State.whenIdle_eq_next.mp h).imp_right .restored
  | setrot r =>
    obtain ⟨hidle, ⟨⟩⟩ := State.whenIdle_eq_next.mp h
    exact ⟨hidle, .rotated⟩
  | refresh =>
    obtain ⟨hidle, hmeaning⟩ := State.whenIdle_eq_next.mp h
    obtain ⟨_, _, ⟨⟩⟩ := withBytes_eq_next.mp hmeaning
    exact ⟨hidle, .refreshed⟩
  | cleartx =>
    obtain ⟨hidle, hmeaning⟩ := State.whenIdle_eq_next.mp h
    obtain ⟨u, hstore, hrun⟩ := andThen_eq_next.mp hmeaning
    obtain ⟨_, rfl⟩ := State.store_eq_next hstore
    cases hrun
    exact ⟨hidle, .cleared⟩

/-! What a step can answer. -/

/-- What one step does to the state `s`, on legal parameters. -/
inductive State.Stepped (s : State) : State → Prop
  /-- The command in progress goes on (R22, R157). -/
  | continued {t : State} (hbusy : s.busy = true) (h : s.resume = .next t) : s.Stepped t
  /-- Nothing is presented and nothing happens (R204). -/
  | stayed (hidle : s.busy = false) : s.Stepped s
  /-- The reset input is taken (R190). -/
  | wasReset {contents : List Byte} {rest : List HostInput} (hidle : s.busy = false)
      (hin : s.inputs = .reset contents :: rest) : s.Stepped ({ s with inputs := rest }.resetInput contents)
  /-- An illegal word is taken (R56). -/
  | rejected {w : CmdWord} {rest : List HostInput} (hidle : s.busy = false) (hin : s.inputs = .command w :: rest) :
      s.Stepped { s with inputs := rest }.rejectWord
  /-- A command is taken and executed (R17). -/
  | executed {w : CmdWord} {rest : List HostInput} {i : Instr} {t : State} (hidle : s.busy = false)
      (hin : s.inputs = .command w :: rest) (hdec : decode w = .ok i)
      (h : exec i { s with inputs := rest } = .next t) : s.Stepped t

/-- What the command in progress can do, by the sequencer. -/
theorem State.resume_cases {s t : State} (h : s.resume = .next t) :
    (s.seq = .idle ∧ t = s) ∨ (∃ n, s.seq = .restoring n ∧ s.loadFrom n = .next t) ∨
      (∃ n, s.seq = .streaming n ∧ s.streamFrom n = .next t) ∨
      ∃ ops, s.seq = .transmitting ops ∧ t = runTx ops s := by
  unfold State.resume at h
  split at h
  case h_1 hseq => exact .inl ⟨hseq, by simpa using h.symm⟩
  case h_2 n hseq => exact .inr (.inl ⟨n, hseq, h⟩)
  case h_3 n hseq => exact .inr (.inr (.inl ⟨n, hseq, h⟩))
  case h_4 ops hseq => exact .inr (.inr (.inr ⟨ops, hseq, by simpa using h.symm⟩))

/-- A busy step answers what the command in progress answers, or refuses a reset. -/
theorem State.continueCommand_eq_next {s t : State} (h : s.continueCommand = .next t) : s.resume = .next t := by
  obtain ⟨u, hu, ht⟩ := andThen_eq_next.mp h
  split at ht
  · cases ht
  · cases ht
    exact hu

/-- On legal parameters an idle SMDC's work is to take the host's next input. -/
theorem State.work_idle {s : State} (hp : s.params.wf = true) (hidle : s.busy = false) : s.work = s.takeInput := by
  simp [State.work, hp, hidle]

/-- On legal parameters a busy SMDC's work is the command in progress. -/
theorem State.work_busy {s : State} (hp : s.params.wf = true) (hbusy : s.busy = true) :
    s.work = .answered s.continueCommand := by
  simp [State.work, hp, hbusy]

/-- A presented word that decodes to a command leaves the port and is to be executed. -/
theorem State.takeInput_command {s : State} {w : CmdWord} {rest : List HostInput} {i : Instr}
    (hin : s.inputs = .command w :: rest) (hdec : decode w = .ok i) :
    s.takeInput = .execute i { s with inputs := rest } := by
  simp [State.takeInput, hin, hdec]

/-- A presented word that decodes to no command leaves the port and is rejected. -/
theorem State.takeInput_illegal {s : State} {w : CmdWord} {rest : List HostInput} {e : IllegalWord}
    (hin : s.inputs = .command w :: rest) (hdec : decode w = .error e) :
    s.takeInput = .answered (.next { s with inputs := rest }.rejectWord) := by
  simp [State.takeInput, hin, hdec]

/-- A presented reset is taken. -/
theorem State.takeInput_reset {s : State} {contents : List Byte} {rest : List HostInput}
    (hin : s.inputs = .reset contents :: rest) :
    s.takeInput = .answered (.next ({ s with inputs := rest }.resetInput contents)) := by
  simp [State.takeInput, hin]

/-- With nothing presented nothing is to be done. -/
theorem State.takeInput_nil {s : State} (hin : s.inputs = []) : s.takeInput = .answered (.next s) := by
  simp [State.takeInput, hin]

/-- The inversion of `step`: one that answers a next state ran on legal parameters and did what `State.Stepped`
says. -/
theorem step_eq_next {s t : State} (h : step s = .next t) : s.params.wf = true ∧ s.Stepped t := by
  cases hp : s.params.wf with
  | false => simp [stepRefusesParameters s hp] at h
  | true =>
    refine ⟨rfl, ?_⟩
    cases hbusy : s.busy with
    | true =>
      rw [step, State.work_busy hp hbusy] at h
      exact .continued hbusy (State.continueCommand_eq_next h)
    | false =>
      rw [step, State.work_idle hp hbusy] at h
      match hin : s.inputs with
      | [] =>
        rw [State.takeInput_nil hin] at h
        cases h
        exact .stayed hbusy
      | .reset contents :: rest =>
        rw [State.takeInput_reset hin] at h
        cases h
        exact .wasReset hbusy hin
      | .command w :: rest =>
        match hdec : decode w with
        | .error e =>
          rw [State.takeInput_illegal hin hdec] at h
          cases h
          exact .rejected hbusy hin
        | .ok i =>
          rw [State.takeInput_command hin hdec] at h
          exact .executed hbusy hin hdec h

/-! Storage in range, and the levels of the bus. -/

/-- The part of the invariant about what is stored: legal parameters (R5), storage canonical and only at indexes
that exist (R11, R47). -/
structure Memory.Fits (p : Params) (m : Memory) : Prop where
  params : p.wf = true
  canonical : m.wf = true
  inRange : m.below (storageSize p) = true

/-- Masked writes inside storage keep it canonical and in range. -/
theorem Memory.Fits.edits {p : Params} {m : Memory} {es : List Edit} (h : m.Fits p)
    (hes : ∀ e ∈ es, e.index < storageSize p) : (m.edits es).Fits p :=
  ⟨h.params, Memory.edits_wf es h.canonical, Memory.below_edits hes h.inRange⟩

/-- Reset contents are canonical and in range, however many bytes are given. -/
theorem Memory.fits_ofBytes_take {p : Params} (contents : List Byte) (hp : p.wf = true) :
    (Memory.ofBytes (contents.take (storageSize p))).Fits p :=
  ⟨hp, Memory.ofBytes_wf _, Memory.ofBytes_below (List.length_take_le _ _)⟩

/-- The bus is closed and the select line low, as they are outside a frame (R22). -/
def State.BusQuiet (s : State) : Prop := s.busOpen = false ∧ s.selectHigh = false

theorem State.inv_iff {s : State} : s.Inv ↔ s.storage.Fits s.params ∧ s.seqOk = true :=
  ⟨fun ⟨hp, hwf, hbelow, hseq⟩ => ⟨⟨hp, hwf, hbelow⟩, hseq⟩,
    fun ⟨⟨hp, hwf, hbelow⟩, hseq⟩ => ⟨hp, hwf, hbelow, hseq⟩⟩

theorem State.seqOk_idle {s : State} (h : s.seq = .idle) : s.seqOk = true ↔ s.BusQuiet := by
  simp [State.seqOk, State.BusQuiet, h]

theorem State.seqOk_restoring {s : State} {n : Nat} (h : s.seq = .restoring n) :
    s.seqOk = true ↔ n < storageSize s.params ∧ s.BusQuiet := by
  simp [State.seqOk, State.BusQuiet, h, and_assoc]

theorem State.seqOk_streaming {s : State} {n : Nat} (h : s.seq = .streaming n) :
    s.seqOk = true ↔ n < storageSize s.params ∧ s.BusQuiet := by
  simp [State.seqOk, State.BusQuiet, h, and_assoc]

theorem State.seqOk_transmitting {s : State} {ops : List TxOp} (h : s.seq = .transmitting ops) :
    s.seqOk = true ↔ framed s.busOpen s.selectHigh ops = true := by
  simp [State.seqOk, h]

/-- An idle SMDC meets the invariant when its storage fits and its bus is quiet. -/
theorem State.inv_of_idle {s : State} (hfits : s.storage.Fits s.params) (hseq : s.seq = .idle) (hbus : s.BusQuiet) :
    s.Inv :=
  State.inv_iff.mpr ⟨hfits, (State.seqOk_idle hseq).mpr hbus⟩

/-! Frames: both are framed when they begin, and every operation leaves the rest framed at the new levels (R158). -/

/-- Bytes inside the select bracket go on to whatever may follow. -/
@[simp] theorem framedBody_emitBytes (bytes : List Byte) (ops : List TxOp) :
    framedBody (emitBytes bytes ++ ops) = framedBody ops := by
  induction bytes with
  | nil => rfl
  | cons b bytes ih => exact ih

/-- Sending bytes makes no toggle. -/
@[simp] theorem toggle_notMem_emitBytes (bytes : List Byte) : TxOp.toggle ∉ emitBytes bytes := by
  simp [emitBytes]

/-- The bytes of one scan line of a refresh frame (R59, R62). -/
def State.lineBytes (s : State) (line : Nat) : List Byte :=
  BitVec.ofNat 8 (line + 1) :: (lineIndexes s.params line).map s.byte ++ [0x00#8]

/-- A refresh frame, its scan lines read as one run of bytes. -/
theorem refreshOps_eq (s : State) :
    refreshOps s = .emit .txBegin :: .emit (.cs true) ::
      .emit (.byte (vcomByte s.params s.vcom ||| s.params.writeCommand)) :: .toggle ::
      (emitBytes ((List.range s.params.rawH).flatMap s.lineBytes) ++
        [.emit (.byte 0x00#8), .emit (.cs false), .emit .txEnd]) := by
  have hlines : (List.range s.params.rawH).flatMap (lineOps s) =
      emitBytes ((List.range s.params.rawH).flatMap s.lineBytes) := List.map_flatMap.symm
  simp [refreshOps, hlines]

theorem refreshOps_framed (s : State) : framed false false (refreshOps s) = true := by
  simp [refreshOps_eq, framed, framedBody]

theorem clearOps_framed (s : State) : framed false false (clearOps s) = true := by
  simp [clearOps, framed, framedBody]

/-- A frame is over on a closed bus with the line low only. -/
theorem framed_nil {opened sel : Bool} (h : framed opened sel [] = true) : opened = false ∧ sel = false := by
  cases opened <;> cases sel <;> simp_all [framed, framedBody]

/-- The frame's toggle leaves the rest framed at the same levels. -/
theorem framed_toggle {opened sel : Bool} {ops : List TxOp} (h : framed opened sel (.toggle :: ops) = true) :
    framed opened sel ops = true := by
  cases opened <;> cases sel <;> simp_all [framed, framedBody]

/-- Inside the select bracket the next event is a byte, or the end of the bracket with `TXEND` alone after it. -/
theorem framedBody_emit {e : TxEvent} {ops : List TxOp} (h : framedBody (.emit e :: ops) = true) :
    (∃ b, e = .byte b ∧ framedBody ops = true) ∨ (e = .cs false ∧ ops = [.emit .txEnd]) := by
  cases e <;> simp_all [framedBody]

/-- From a closed bus a frame begins by opening it. -/
theorem framed_closed_emit {sel : Bool} {e : TxEvent} {ops : List TxOp} (h : framed false sel (.emit e :: ops) = true) :
    sel = false ∧ e = .txBegin ∧ framed true false ops = true := by
  unfold framed at h
  split at h <;> simp_all [framed]

/-- On an open bus with the line low the next event raises the line, or ends the frame. -/
theorem framed_open_emit {e : TxEvent} {ops : List TxOp} (h : framed true false (.emit e :: ops) = true) :
    (e = .cs true ∧ framedBody ops = true) ∨ (e = .txEnd ∧ ops = []) := by
  unfold framed at h
  split at h <;> simp_all

/-- An event of the frame leaves the rest framed at the levels it drives. -/
theorem framed_emit {s : State} {e : TxEvent} {ops : List TxOp}
    (h : framed s.busOpen s.selectHigh (.emit e :: ops) = true) :
    framed (s.emit e).busOpen (s.emit e).selectHigh ops = true := by
  cases hbus : s.busOpen with
  | false =>
    obtain ⟨hsel, rfl, hrest⟩ := framed_closed_emit (hbus ▸ h)
    simpa [hsel] using hrest
  | true =>
    cases hsel : s.selectHigh with
    | false =>
      rw [hbus, hsel] at h
      obtain ⟨rfl, hbody⟩ | ⟨rfl, rfl⟩ := framed_open_emit h
      · simpa [hbus, framed] using hbody
      · simp [hsel, framed]
    | true =>
      rw [hbus, hsel] at h
      obtain ⟨b, rfl, hbody⟩ | ⟨rfl, rfl⟩ := framedBody_emit h
      · simpa [hbus, hsel, framed] using hbody
      · simp [hbus, framed]

/-- A framed list of operations run against the Transport leaves the sequencer consistent, completed or waiting. -/
theorem runTx_seqOk {ops : List TxOp} {s : State} (h : framed s.busOpen s.selectHigh ops = true) :
    (runTx ops s).seqOk = true := by
  induction ops generalizing s with
  | nil => exact (State.seqOk_idle rfl).mpr (framed_nil h)
  | cons op ops ih =>
    cases op with
    | toggle => exact ih (s := s.toggleVcom) (framed_toggle h)
    | emit e =>
      have hrest := framed_emit h
      match hr : s.transport with
      | .always => simpa [runTx, hr] using ih hrest
      | .upTo 0 => simpa [runTx, hr] using (State.seqOk_transmitting (State.wait_seq s _)).mpr h
      | .upTo (n + 1) =>
        simpa [runTx, hr] using ih (s := (s.withTransport (.upTo n)).emit e) (by rwa [State.emit_withTransport])

/-! The invariant. -/

/-- SNAPSHOT keeps the invariant from any byte on. -/
theorem streamFrom_inv {s t : State} {n : Nat} (hfits : s.storage.Fits s.params) (hbus : s.BusQuiet)
    (h : s.streamFrom n = .next t) : t.Inv := by
  obtain ⟨k, ⟨hlt, rfl⟩ | ⟨bytes, rfl⟩⟩ := State.streamFrom_cases h
  · exact State.inv_iff.mpr ⟨hfits, (State.seqOk_streaming rfl).mpr ⟨hlt, hbus⟩⟩
  · exact State.inv_of_idle hfits rfl hbus

/-- RESTORE keeps the invariant from any byte on: the bytes it stores have indexes that exist. -/
theorem loadFrom_inv {s t : State} {n : Nat} (hfits : s.storage.Fits s.params) (hbus : s.BusQuiet)
    (h : s.loadFrom n = .next t) : t.Inv := by
  have hloaded : (s.loaded n).storage.Fits s.params := hfits.edits (offered_edits_in_range s n)
  obtain ⟨m, hlt, rfl⟩ | rfl := State.loadFrom_cases h
  · exact State.inv_iff.mpr ⟨hloaded, (State.seqOk_restoring rfl).mpr ⟨hlt, hbus⟩⟩
  · exact State.inv_of_idle hloaded rfl hbus

/-- Running a framed list of operations keeps the invariant, however far the Transport lets it go. -/
theorem runTx_inv {ops : List TxOp} {s : State} (hfits : s.storage.Fits s.params)
    (hframed : framed s.busOpen s.selectHigh ops = true) : (runTx ops s).Inv := by
  obtain ⟨hparams, hstorage, _⟩ := runTx_keeps ops s
  exact State.inv_iff.mpr ⟨by rwa [hparams, hstorage], runTx_seqOk hframed⟩

/-- Every command keeps the invariant. -/
theorem exec_inv {i : Instr} {s t : State} (hinv : s.Inv) (h : exec i s = .next t) : t.Inv := by
  obtain ⟨hidle, hexec⟩ := exec_eq_next h
  obtain ⟨hfits, hseqOk⟩ := State.inv_iff.mp hinv
  have hseq : s.seq = .idle := State.busy_eq_false.mp hidle
  have hbus : s.BusQuiet := (State.seqOk_idle hseq).mp hseqOk
  cases hexec with
  | drawn _ hes => exact State.inv_of_idle (hfits.edits hes) hseq hbus
  | got | rotated => exact State.inv_of_idle hfits hseq hbus
  | streamed h => exact streamFrom_inv hfits hbus h
  | restored h => exact loadFrom_inv hfits hbus h
  | refreshed =>
    refine runTx_inv hfits ?_
    rw [hbus.1, hbus.2]
    exact refreshOps_framed s
  | cleared =>
    refine runTx_inv (hfits.edits whiteEdits_in_range) ?_
    rw [show s.whitened.busOpen = false from hbus.1, show s.whitened.selectHigh = false from hbus.2]
    exact clearOps_framed _

/-- The command in progress, going on, keeps the invariant. -/
theorem resume_inv {s t : State} (hinv : s.Inv) (h : s.resume = .next t) : t.Inv := by
  obtain ⟨hfits, hseqOk⟩ := State.inv_iff.mp hinv
  obtain ⟨_, rfl⟩ | ⟨n, hseq, h⟩ | ⟨n, hseq, h⟩ | ⟨ops, hseq, rfl⟩ := State.resume_cases h
  · exact hinv
  · exact loadFrom_inv hfits ((State.seqOk_restoring hseq).mp hseqOk).2 h
  · exact streamFrom_inv hfits ((State.seqOk_streaming hseq).mp hseqOk).2 h
  · exact runTx_inv hfits ((State.seqOk_transmitting hseq).mp hseqOk)

/-- Settles O16, by cases on what the step did: a frame keeps its nesting operation by operation (`framed_emit`), and
every write of every command lies in storage. -/
theorem stepKeepsInvariant : Obligations.StepKeepsInvariant := by
  intro s t hinv h
  obtain ⟨hp, hstep⟩ := step_eq_next h
  cases hstep with
  | continued _ h => exact resume_inv hinv h
  | stayed => exact hinv
  | wasReset => exact State.inv_of_idle (Memory.fits_ofBytes_take _ hp) rfl ⟨rfl, rfl⟩
  | rejected => exact hinv
  | executed _ _ _ h =>
    refine exec_inv ?_ h
    exact hinv

/-- Settles O15: nothing is in progress after reset, and the contents are cut to the storage's length. -/
theorem resetMeetsInvariant : Obligations.ResetMeetsInvariant :=
  fun _ contents hp => State.inv_of_idle (Memory.fits_ofBytes_take contents hp) rfl ⟨rfl, rfl⟩

/-- Settles O12: the given contents are what storage reads as, below its length. -/
theorem resetValues : Obligations.ResetValues := by
  intro p contents
  refine ⟨rfl, rfl, rfl, rfl, rfl, rfl, rfl, rfl, rfl, rfl, rfl, fun i b hi hb => ?_⟩
  have hread : (State.resetWith p contents).byte i = (contents.take (storageSize p)).getD i Memory.unlisted :=
    Memory.read_ofBytes _ i
  simp [hread, hi, hb]

/-- Settles O6: on legal parameters an idle SMDC's work is its next input, here a word that decodes to a command. -/
theorem stepRunsDecoded : Obligations.StepRunsDecoded := by
  intro s w rest i hp hidle hin hdec
  rw [step, State.work_idle hp hidle, State.takeInput_command hin hdec]

/-! What commands leave as it was. -/

/-- The command in progress, going on, takes no input. -/
theorem resume_inputs {s t : State} (h : s.resume = .next t) : t.inputs = s.inputs := by
  obtain ⟨_, rfl⟩ | ⟨n, _, h⟩ | ⟨n, _, h⟩ | ⟨ops, _, rfl⟩ := State.resume_cases h
  · rfl
  · obtain ⟨m, _, rfl⟩ | rfl := State.loadFrom_cases h <;> rfl
  · obtain ⟨k, ⟨_, rfl⟩ | ⟨bytes, rfl⟩⟩ := State.streamFrom_cases h <;> rfl
  · obtain ⟨_, _, _, hinputs, _⟩ := runTx_keeps ops s
    exact hinputs

/-- Settles O9: a busy step is the command in progress going on, and that takes no input. -/
theorem busyAcceptsNothing : Obligations.BusyAcceptsNothing := by
  intro s t hbusy h
  obtain ⟨_, hstep⟩ := step_eq_next h
  cases hstep with
  | continued _ h => exact resume_inputs h
  | stayed hidle | wasReset hidle | rejected hidle | executed hidle => simp [hbusy] at hidle

/-- Settles O54, by cases on the command. -/
theorem onlySetrotRotates : Obligations.OnlySetrotRotates := by
  intro i s t h
  obtain ⟨_, hexec⟩ := exec_eq_next h
  cases hexec with
  | drawn | got => exact ⟨rfl, rfl, fun _ => rfl⟩
  | streamed h =>
    obtain ⟨k, ⟨_, rfl⟩ | ⟨bytes, rfl⟩⟩ := State.streamFrom_cases h <;> exact ⟨rfl, rfl, fun _ => rfl⟩
  | restored h => obtain ⟨m, _, rfl⟩ | rfl := State.loadFrom_cases h <;> exact ⟨rfl, rfl, fun _ => rfl⟩
  | rotated => exact ⟨rfl, rfl, fun hother => absurd rfl (hother _)⟩
  | refreshed =>
    obtain ⟨hparams, _, hrot, hinputs, _⟩ := runTx_keeps (refreshOps s) s
    exact ⟨hparams, hinputs, fun _ => hrot⟩
  | cleared =>
    obtain ⟨hparams, _, hrot, hinputs, _⟩ := runTx_keeps (clearOps s.whitened) s.whitened
    exact ⟨hparams, hinputs, fun _ => hrot⟩

/-- Settles O55, by cases on the command: each of the four touches other fields only. -/
theorem readersKeepStorage : Obligations.ReadersKeepStorage := by
  intro i s t hreader h
  obtain ⟨_, hexec⟩ := exec_eq_next h
  cases hexec with
  | drawn hwriter => rcases hreader with rfl | rfl | ⟨x, y, rfl⟩ | ⟨r, rfl⟩ <;> simp [Instr.draws] at hwriter
  | got | rotated => rfl
  | streamed h => obtain ⟨k, ⟨_, rfl⟩ | ⟨bytes, rfl⟩⟩ := State.streamFrom_cases h <;> rfl
  | refreshed =>
    obtain ⟨_, hstorage, _⟩ := runTx_keeps (refreshOps s) s
    exact hstorage
  | restored | cleared => simp at hreader

/-- Settles O56, by cases on the command: only RESTORE and SNAPSHOT touch a data port, each its own. -/
theorem dataPortsHaveOneUser : Obligations.DataPortsHaveOneUser := by
  intro i s t h
  obtain ⟨_, hexec⟩ := exec_eq_next h
  cases hexec with
  | drawn | got | rotated => exact ⟨fun _ => rfl, fun _ => ⟨rfl, rfl⟩⟩
  | streamed h =>
    refine ⟨fun _ => ?_, fun hother => absurd rfl hother⟩
    obtain ⟨k, ⟨_, rfl⟩ | ⟨bytes, rfl⟩⟩ := State.streamFrom_cases h <;> rfl
  | restored h =>
    refine ⟨fun hother => absurd rfl hother, fun _ => ?_⟩
    obtain ⟨m, _, rfl⟩ | rfl := State.loadFrom_cases h <;> exact ⟨rfl, rfl⟩
  | refreshed =>
    obtain ⟨_, _, _, _, hin, hout, hready⟩ := runTx_keeps (refreshOps s) s
    exact ⟨fun _ => hin, fun _ => ⟨hout, hready⟩⟩
  | cleared =>
    obtain ⟨_, _, _, _, hin, hout, hready⟩ := runTx_keeps (clearOps s.whitened) s.whitened
    exact ⟨fun _ => hin, fun _ => ⟨hout, hready⟩⟩

/-! Responses. -/

/-- From `s` to `t` a command waits and has answered nothing, or has completed and answered just `r` (R19). -/
def State.AnswersOnce (s t : State) (r : Response) : Prop :=
  (t.busy = true ∧ t.responses = s.responses) ∨ (t.busy = false ∧ t.responses = s.responses ++ [r])

/-- The response is of the kind R19 gives the command. -/
def IsAnswerOf : Instr → Response → Prop
  | .getpix _ _, r => ∃ b, r = .pixel b
  | .snapshot, r => ∃ bytes, r = .data bytes
  | _, r => r = .done

/-- A drawing command and CLEAR answer `DONE`. -/
theorem isAnswerOf_done {i : Instr} (hi : i.draws = true ∨ i = .clear) : IsAnswerOf i .done := by
  cases i with
  | getpix | snapshot => simp [Instr.draws] at hi
  | _ => rfl

/-- A frame answers nothing while the Transport holds it up, and `DONE` once at its end. -/
theorem runTx_answersOnce (ops : List TxOp) (s : State) : s.AnswersOnce (runTx ops s) .done := by
  induction ops generalizing s with
  | nil => exact .inr ⟨rfl, rfl⟩
  | cons op ops ih =>
    cases op with
    | toggle => exact ih s.toggleVcom
    | emit e =>
      match hr : s.transport with
      | .always => simpa [runTx, hr, State.AnswersOnce] using ih (s.emit e)
      | .upTo 0 => exact .inl (by simp [runTx, hr, State.busy])
      | .upTo (n + 1) => simpa [runTx, hr, State.AnswersOnce] using ih ((s.withTransport (.upTo n)).emit e)

/-- Every command answers once, with a response of its kind. -/
theorem exec_answersOnce {i : Instr} {s t : State} (h : exec i s = .next t) :
    ∃ r, IsAnswerOf i r ∧ s.AnswersOnce t r := by
  obtain ⟨hidle, hexec⟩ := exec_eq_next h
  cases hexec with
  | drawn hi => exact ⟨.done, isAnswerOf_done hi, .inr ⟨hidle, rfl⟩⟩
  | got => exact ⟨_, ⟨_, rfl⟩, .inr ⟨hidle, rfl⟩⟩
  | streamed h =>
    obtain ⟨k, ⟨_, rfl⟩ | ⟨bytes, rfl⟩⟩ := State.streamFrom_cases h
    · exact ⟨.data [], ⟨_, rfl⟩, .inl ⟨rfl, rfl⟩⟩
    · exact ⟨.data bytes, ⟨_, rfl⟩, .inr ⟨rfl, rfl⟩⟩
  | restored h =>
    obtain ⟨m, _, rfl⟩ | rfl := State.loadFrom_cases h
    · exact ⟨.done, rfl, .inl ⟨rfl, rfl⟩⟩
    · exact ⟨.done, rfl, .inr ⟨rfl, rfl⟩⟩
  | rotated => exact ⟨.done, rfl, .inr ⟨hidle, rfl⟩⟩
  | refreshed => exact ⟨.done, rfl, runTx_answersOnce _ _⟩
  | cleared => exact ⟨.done, rfl, runTx_answersOnce _ s.whitened⟩

/-- Settles O57, by cases on the command for the kind of its one response. -/
theorem oneResponsePerCommand : Obligations.OneResponsePerCommand := by
  intro i s t h
  obtain ⟨r, hkind, ⟨hbusy, hresponses⟩ | ⟨hidle, hresponses⟩⟩ := exec_answersOnce h
  · exact ⟨fun _ => hresponses, by simp [hbusy]⟩
  · refine ⟨by simp [hidle], fun _ => ⟨r, hresponses, ?_⟩⟩
    cases i with
    | getpix => exact ⟨fun _ => hkind, by simp, by simp⟩
    | snapshot => exact ⟨by simp, fun _ => hkind, by simp⟩
    | _ => exact ⟨by simp, by simp, fun _ _ => hkind⟩

end Sys2Proof.Machine
end

section
/-! PROOFS. Storage (20_memory.md): no command and no step faults (part 4, R47), a single-bit write is the OR or AND of
R34, and drawing keeps every bit that is no pixel's (R37). -/

namespace Sys2Proof.Machine

open Sys2Proof

/-! What a command answers, idle or busy. -/

/-- A meaning does not run on a busy SMDC (R45). -/
theorem State.whenIdle_busy {s : State} (a : Answer) (h : s.busy = true) :
    s.whenIdle a = .refused .commandWhileBusy := by
  simp [State.whenIdle, h]

/-- Every command has a next state on an idle SMDC, so none faults: every index it computes exists (R47). -/
theorem exec_eq_whenIdle_next (i : Instr) (s : State) : ∃ t, exec i s = s.whenIdle (.next t) := by
  cases i with
  | setpix | fillrect | hline | rawhline | rawvline =>
    exact ⟨_, (exec_draws rfl s).trans (congrArg s.whenIdle (State.draw_eq (drawEdits_in_range _ _ _)))⟩
  | clear => exact ⟨_, congrArg s.whenIdle (State.draw_eq whiteEdits_in_range)⟩
  | getpix x y => exact ⟨_, execGetpix_eq x y s⟩
  | snapshot => exact ⟨_, congrArg s.whenIdle (State.streamFrom_eq s 0)⟩
  | restore => exact ⟨_, congrArg s.whenIdle (State.loadFrom_eq s 0)⟩
  | setrot r => exact ⟨_, rfl⟩
  | refresh =>
    refine ⟨runTx (refreshOps s) s, congrArg s.whenIdle ?_⟩
    rw [State.fetch_eq lineIndexes_in_range, withBytes_ok]
  | cleartx =>
    refine ⟨runTx (clearOps s.whitened) s.whitened, congrArg s.whenIdle ?_⟩
    rw [State.store_eq whiteEdits_in_range]
    rfl

/-- Settles O10: every command asks for an idle SMDC first. -/
theorem busyRefusesCommand : Obligations.BusyRefusesCommand := by
  intro i s hbusy
  obtain ⟨t, h⟩ := exec_eq_whenIdle_next i s
  rw [h, State.whenIdle_busy _ hbusy]

/-! No fault. -/

/-- A command is refused or has a next state. -/
theorem exec_ne_fault (i : Instr) (s : State) (f : Fault) : exec i s ≠ .fault f := by
  obtain ⟨t, h⟩ := exec_eq_whenIdle_next i s
  rw [h, State.whenIdle]
  split <;> exact nofun

/-- The command in progress always has a next state, whatever its progress says. -/
theorem State.resume_eq_next (s : State) : ∃ t, s.resume = .next t := by
  unfold State.resume
  split
  case h_1 => exact ⟨_, rfl⟩
  case h_2 n _ => exact ⟨_, State.loadFrom_eq s n⟩
  case h_3 n _ => exact ⟨_, State.streamFrom_eq s n⟩
  case h_4 => exact ⟨_, rfl⟩

/-- A busy step goes on or refuses a reset. -/
theorem State.continueCommand_ne_fault (s : State) (f : Fault) : s.continueCommand ≠ .fault f := by
  obtain ⟨t, h⟩ := s.resume_eq_next
  rw [State.continueCommand, h, andThen_next]
  split <;> exact nofun

/-- An idle SMDC takes its next input without an answer that is a fault. -/
theorem State.takeInput_ne_fault (s : State) (f : Fault) : s.takeInput ≠ .answered (.fault f) := by
  unfold State.takeInput
  split
  case h_1 | h_2 => exact nofun
  case h_3 => split <;> exact nofun

/-- The work of a step is no fault: what is answered at once is a refusal or a next state. -/
theorem State.work_ne_fault (s : State) (f : Fault) : s.work ≠ .answered (.fault f) := by
  unfold State.work
  split
  case isFalse => exact nofun
  case isTrue =>
    split
    case isTrue => exact fun h => s.continueCommand_ne_fault f (Work.answered.inj h)
    case isFalse => exact s.takeInput_ne_fault f

/-- Settles O17: every index a command computes exists (`exec_eq_whenIdle_next`), and a step answers what its work or
its command answers. -/
theorem noFault : Obligations.NoFault := by
  refine ⟨exec_ne_fault, fun s f => ?_⟩
  unfold step
  split
  case h_1 a hwork => exact fun ha => s.work_ne_fault f (hwork.trans (congrArg Work.answered ha))
  case h_2 i t _ => exact exec_ne_fault i t f

/-! Single-bit writes. -/

/-- One masked write changes the one byte it names (R36). -/
theorem Memory.read_edit {m : Memory} (e : Edit) (j : Nat) (h : m.wf = true) :
    (m.edit e).read j = if j = e.index then maskedByte (m.read j) e.mask e.val else m.read j := by
  rw [Memory.edit, Memory.read_write _ _ _ h]
  split
  case isTrue hj => rw [hj]
  case isFalse => rfl

/-- Settles O28: the write is masked, and a masked bit is the OR or the AND (`maskedByte_bit`). -/
theorem bitWriteIsOrAnd : Obligations.BitWriteIsOrAnd := by
  intro m p xr yr b i hm
  rw [Memory.read_edit _ _ hm]
  simp only [bitEdit, maskedByte_bit]

/-! Drawing writes pixels only. -/

/-- Bit `b` of byte `j` of storage is that of a raw pixel (R31, R32); every other bit is padding (R37) or lies outside
storage. -/
def IsPixelBit (p : Params) (j b : Nat) : Prop :=
  ∃ xr yr, xr < p.rawW ∧ yr < p.rawH ∧ j = byteIndex p xr yr ∧ b = xr % 8

/-- The masked write covers bits of pixels only. -/
def Edit.OnPixels (p : Params) (e : Edit) : Prop :=
  ∀ b, e.mask.getLsbD b = true → IsPixelBit p e.index b

/-- A padding bit, at or past the end of its scan line, is no pixel's (R37). -/
theorem not_isPixelBit_padding {p : Params} {y k b : Nat} (hk : k < rowBytes p) (hb : b < 8)
    (hpad : p.rawW ≤ 8 * k + b) : ¬ IsPixelBit p (y * rowBytes p + k) b := by
  rintro ⟨xr, yr, hx, _, hj, rfl⟩
  have hmod (c z : Nat) (hc : c < rowBytes p) : (z * rowBytes p + c) % rowBytes p = c := by
    rw [Nat.mul_add_mod_self_right, Nat.mod_eq_of_lt hc]
  have hcol : k = xr / 8 := by
    rw [← hmod k y hk, hj, byteIndex, Nat.add_comm, hmod _ _ (column_of_x hx)]
  omega

/-- No byte outside storage holds a pixel (R30). -/
theorem not_isPixelBit_outside {p : Params} {j b : Nat} (hj : storageSize p ≤ j) : ¬ IsPixelBit p j b := by
  rintro ⟨xr, yr, hx, hy, rfl, _⟩
  have := byteIndex_lt hx hy
  omega

/-- Writes that cover bits of pixels only keep every other bit of storage. -/
theorem Memory.getLsbD_edits_of_not_isPixelBit {p : Params} {m : Memory} {es : List Edit} {j b : Nat}
    (hm : m.wf = true) (hes : ∀ e ∈ es, e.OnPixels p) (hbit : ¬ IsPixelBit p j b) :
    ((m.edits es).read j).getLsbD b = (m.read j).getLsbD b := by
  induction es generalizing m with
  | nil => rfl
  | cons e es ih =>
    have hkeep : ((m.edit e).read j).getLsbD b = (m.read j).getLsbD b := by
      rw [Memory.read_edit _ _ hm]
      split
      case isFalse => rfl
      case isTrue hj =>
        have hmask : ¬ e.mask.getLsbD b = true := fun hb => hbit (hj ▸ hes e List.mem_cons_self b hb)
        rw [maskedByte_getLsbD, if_neg hmask]
    exact (ih (Memory.write_wf _ _ hm) fun d hd => hes d (List.mem_cons_of_mem _ hd)).trans hkeep

/-- A single-bit write of a raw pixel covers that pixel. -/
theorem bitEdit_onPixels {p : Params} {xr yr : Nat} {v : Bool} (hx : xr < p.rawW) (hy : yr < p.rawH) :
    (bitEdit p xr yr v).OnPixels p :=
  fun _ hb => ⟨xr, yr, hx, hy, rfl, by simpa [bitEdit] using hb⟩

/-- A masked write at byte column `k` of raw line `y` covers pixels when each bit of its mask is left of the line's
end. -/
theorem columnEdit_onPixels {p : Params} {y k : Nat} {mask val : Byte} (hy : y < p.rawH)
    (hmask : ∀ b < 8, mask.getLsbD b = true → 8 * k + b < p.rawW) :
    Edit.OnPixels p ⟨y * rowBytes p + k, mask, val⟩ := by
  intro b hb
  have hb8 : b < 8 := BitVec.lt_of_getLsbD hb
  refine ⟨8 * k + b, y, hmask b hb8 hb, hy, ?_, by omega⟩
  rw [byteIndex, show (8 * k + b) / 8 = k by omega, Nat.add_comm]

/-- Whole bytes and a tail inside the line cover its pixels (R127, segments 2 and 3). -/
theorem alignedRunEdits_onPixels {p : Params} {code : Code} {y k n : Nat} (hy : y < p.rawH)
    (hn : 0 < n → 8 * k + n ≤ p.rawW) : ∀ e ∈ alignedRunEdits p code y k n, e.OnPixels p := by
  intro e he
  simp only [alignedRunEdits, List.mem_append, List.mem_map, List.mem_range] at he
  obtain ⟨j, hj, rfl⟩ | he := he
  · exact columnEdit_onPixels hy fun b _ _ => by omega
  · split at he
    case isTrue htail =>
      obtain rfl := List.mem_singleton.mp he
      refine columnEdit_onPixels hy fun b hb hmask => ?_
      rw [tailMask_getLsbD (by omega) b hb, decide_eq_true_eq] at hmask
      omega
    case isFalse => simp at he

/-- A row run inside the display covers pixels of its line (R127). -/
theorem rawHlineEdits_onPixels {p : Params} {code : Code} {x y w : Nat} (hy : y < p.rawH) (hx : x + w ≤ p.rawW) :
    ∀ e ∈ rawHlineEdits p code x y w, e.OnPixels p := by
  intro e he
  unfold rawHlineEdits at he
  split at he
  case isTrue => exact alignedRunEdits_onPixels hy (by omega) e he
  case isFalse =>
    obtain rfl | he := List.mem_cons.mp he
    · refine columnEdit_onPixels hy fun b hb hmask => ?_
      rw [spanMask_getLsbD (by omega) (by omega) b hb, decide_eq_true_eq] at hmask
      omega
    · exact alignedRunEdits_onPixels hy (by omega) e he

/-- A column run inside the display covers its pixels (R132). -/
theorem rawVlineEdits_onPixels {p : Params} {code : Code} {x y h : Nat} (hx : x < p.rawW) (hy : y + h ≤ p.rawH) :
    ∀ e ∈ rawVlineEdits p code x y h, e.OnPixels p := by
  intro e he
  simp only [rawVlineEdits, List.mem_map, List.mem_range] at he
  obtain ⟨j, hj, rfl⟩ := he
  exact bitEdit_onPixels hx (by omega)

/-- SETPIX covers the rotated point, in bounds only (R82). -/
theorem setpixEdits_onPixels {p : Params} {r : Rotation} {x y : Int} {code : Code} :
    ∀ e ∈ setpixEdits p r x y code, e.OnPixels p := by
  intro e he
  unfold setpixEdits at he
  split at he
  case isTrue hin =>
    obtain ⟨hx, hy, _⟩ := rotate_in_range hin
    obtain rfl := List.mem_singleton.mp he
    exact bitEdit_onPixels hx hy
  case isFalse => simp at he

/-- A clipped run covers pixels in each rotation (R122, R125). -/
theorem hlineEdits_onPixels {p : Params} {r : Rotation} {x y w : Int} {code : Code} :
    ∀ e ∈ hlineEdits p r x y w code, e.OnPixels p := by
  intro e he
  simp only [hlineEdits] at he
  split at he
  case isTrue => simp at he
  case isFalse hrej =>
    obtain ⟨hlow, hlen, hhigh, hy, hy'⟩ := clip_in_range (Bool.eq_false_of_not_eq_true hrej)
    generalize clip p r (normalise x w).1 (normalise x w).2 = c at *
    cases r with
    | rot0 | rot2 =>
      simp only [width, height] at hhigh hy'
      exact rawHlineEdits_onPixels (by omega) (by omega) e he
    | rot1 | rot3 =>
      simp only [width, height] at hhigh hy'
      exact rawVlineEdits_onPixels (by omega) (by omega) e he

/-- FILLRECT covers pixels, each row being a clipped run (R121). -/
theorem fillrectEdits_onPixels {p : Params} {r : Rotation} {x y w h : Int} {code : Code} :
    ∀ e ∈ fillrectEdits p r x y w h code, e.OnPixels p := by
  intro e he
  obtain ⟨_, _, he⟩ := List.mem_flatMap.mp he
  exact hlineEdits_onPixels e he

/-- RAWHLINE covers pixels, its run clipped to the raw canvas (R126). -/
theorem rawhlineClipped_onPixels {p : Params} {x y w : Int} {code : Code} :
    ∀ e ∈ rawhlineClipped p x y w code, e.OnPixels p := by
  intro e he
  simp only [rawhlineClipped] at he
  split at he
  case isTrue => simp at he
  case isFalse =>
    split at he
    case isTrue => simp at he
    case isFalse =>
      simp only [clipLow, clipHigh] at *
      exact rawHlineEdits_onPixels (by omega) (by omega) e he

/-- RAWVLINE covers pixels, its run clipped to the raw canvas (R131). -/
theorem rawvlineClipped_onPixels {p : Params} {x y h : Int} {code : Code} :
    ∀ e ∈ rawvlineClipped p x y h code, e.OnPixels p := by
  intro e he
  simp only [rawvlineClipped] at he
  split at he
  case isTrue => simp at he
  case isFalse =>
    split at he
    case isTrue => simp at he
    case isFalse =>
      simp only [clipLow, clipHigh] at *
      exact rawVlineEdits_onPixels (by omega) (by omega) e he

/-- The masked writes of every drawing command cover bits of pixels only (R37, R133). -/
theorem drawEdits_onPixels (p : Params) (r : Rotation) (i : Instr) : ∀ e ∈ i.drawEdits p r, e.OnPixels p := by
  cases i with
  | setpix => exact setpixEdits_onPixels
  | fillrect => exact fillrectEdits_onPixels
  | hline => exact hlineEdits_onPixels
  | rawhline => exact rawhlineClipped_onPixels
  | rawvline => exact rawvlineClipped_onPixels
  | _ => simp [Instr.drawEdits]

/-- A drawing command makes its masked writes and answers `DONE`, nothing else (R133). -/
theorem exec_draws_eq_next {i : Instr} {s t : State} (hi : i.draws = true) (h : exec i s = .next t) :
    t = { s with storage := s.storage.edits (i.drawEdits s.params s.rot) }.respond .done := by
  rw [exec_draws hi] at h
  exact (State.draw_eq_next (State.whenIdle_eq_next.mp h).2).2

/-- Settles O41: a drawing command keeps every bit that is no pixel's, and neither padding nor a byte outside storage
holds a pixel. -/
theorem drawingKeepsPadding : Obligations.DrawingKeepsPadding := by
  intro i s t hi hm h
  obtain rfl := exec_draws_eq_next hi h
  have hkeep {j b : Nat} (hbit : ¬ IsPixelBit s.params j b) :
      ((s.storage.edits (i.drawEdits s.params s.rot)).read j).getLsbD b = (s.storage.read j).getLsbD b :=
    Memory.getLsbD_edits_of_not_isPixelBit hm (drawEdits_onPixels s.params s.rot i) hbit
  exact ⟨fun y k b _ hk hb hpad => hkeep (not_isPixelBit_padding hk hb hpad),
    fun j hj => BitVec.eq_of_getLsbD_eq fun b _ => hkeep (not_isPixelBit_outside hj)⟩

end Sys2Proof.Machine
end

section
/-! PROOFS. The encoding (30_encoding.md): which words decode and to what, that the decoder reads back what the encoder
writes, that an illegal word answers `ILLEGAL` and changes nothing else, and the bytes of a refresh frame. -/

namespace Sys2Proof

/-! Operands: what a field carries (R51, R90). -/

theorem fitsOperand_iff {v : Int} : fitsOperand v = true ↔ -32768 ≤ v ∧ v ≤ 32767 := by
  simp [fitsOperand]

/-- Every integer in range survives its field (R51). -/
theorem signedOperand_operandField {v : Int} (h : fitsOperand v = true) : signedOperand (operandField v) = v := by
  obtain ⟨hlo, hhi⟩ := fitsOperand_iff.mp h
  exact BitVec.toInt_ofInt_eq_self (by decide) hlo (by omega)

/-- Whatever a field carries is in range (R51). -/
@[simp] theorem fitsOperand_signedOperand (v : BitVec 16) : fitsOperand (signedOperand v) = true :=
  fitsOperand_iff.mpr ⟨BitVec.le_toInt v, Int.le_of_lt_add_one BitVec.toInt_lt⟩

/-- A rotation survives the field the encoder writes it to (R90). -/
@[simp] theorem rotationOperand_operandField (r : Rotation) :
    rotationOperand (operandField (r.toBits.toNat : Int)) = r := by
  cases r <;> rfl

/-- SETROT reads bits 49 and 48 of the word (R90). -/
theorem rotationOperand_fieldA (w : CmdWord) : rotationOperand (fieldA w) = Rotation.ofBits (w.extractLsb' 48 2) := by
  have hbits : (fieldA w).extractLsb' 0 2 = w.extractLsb' 48 2 := by
    ext j hj
    simp [fieldA, show j < 16 by omega]
  rw [rotationOperand, hbits]

/-! Rows: `decodeRow` keeps to its row and gives well-formed commands (R51, R52). -/

@[simp] theorem decodeRow_opcode (o : Opcode) (w : CmdWord) : (decodeRow o w).opcode = o := by
  cases o <;> rfl

@[simp] theorem decodeRow_wf (o : Opcode) (w : CmdWord) : (decodeRow o w).wf = true := by
  cases o <;> simp [decodeRow, Instr.wf]

/-- No row of R52 has the byte exactly when it is none of the twelve values. -/
theorem Opcode.ofByte_eq_none_iff {b : Byte} :
    Opcode.ofByte b = none ↔ b.toNat ∉ Opcode.all.map fun o => o.byte.toNat := by
  simp [Opcode.ofByte, List.find?_eq_none, BitVec.toNat_inj]

/-! The decoder: its three answers in the order of R55, and the inversion of each. -/

theorem decode_of_rsv {w : CmdWord} (hrsv : fieldRsv w ≠ 0#5) : decode w = .error .reservedBits := by
  simp [decode, hrsv]

theorem decode_of_no_row {w : CmdWord} (hrsv : fieldRsv w = 0#5) (hop : Opcode.ofByte (fieldOp w) = none) :
    decode w = .error .unknownOpcode := by
  simp [decode, hrsv, hop]

theorem decode_of_row {w : CmdWord} (o : Opcode) (hrsv : fieldRsv w = 0#5) (hop : fieldOp w = o.byte) :
    decode w = .ok (decodeRow o w) := by
  simp [decode, hrsv, hop, Opcode.ofByte_byte]

/-- What the decoder can do: refuse reserved bits, else refuse an opcode of no row, else read a row. -/
theorem decode_cases (w : CmdWord) :
    (fieldRsv w ≠ 0#5 ∧ decode w = .error .reservedBits) ∨
    (fieldRsv w = 0#5 ∧ Opcode.ofByte (fieldOp w) = none ∧ decode w = .error .unknownOpcode) ∨
    ∃ o : Opcode, fieldRsv w = 0#5 ∧ Opcode.ofByte (fieldOp w) = some o ∧ decode w = .ok (decodeRow o w) := by
  by_cases hrsv : fieldRsv w = 0#5
  · cases hop : Opcode.ofByte (fieldOp w) with
    | none => exact .inr (.inl ⟨hrsv, rfl, decode_of_no_row hrsv hop⟩)
    | some o => exact .inr (.inr ⟨o, hrsv, rfl, decode_of_row o hrsv (Opcode.byte_of_ofByte hop).symm⟩)
  · exact .inl ⟨hrsv, decode_of_rsv hrsv⟩

/-- A word is refused for its reserved bits exactly when one is set (R54). -/
theorem decode_eq_reservedBits_iff {w : CmdWord} : decode w = .error .reservedBits ↔ fieldRsv w ≠ 0#5 := by
  rcases decode_cases w with ⟨hrsv, h⟩ | ⟨hrsv, _, h⟩ | ⟨o, hrsv, _, h⟩ <;> simp [h, hrsv]

/-- A word with none set is refused for its opcode exactly when no row has it (R56). -/
theorem decode_eq_unknownOpcode_iff {w : CmdWord} (hrsv : fieldRsv w = 0#5) :
    decode w = .error .unknownOpcode ↔ Opcode.ofByte (fieldOp w) = none := by
  rcases decode_cases w with ⟨hne, _⟩ | ⟨_, hop, h⟩ | ⟨o, _, hop, h⟩
  · exact absurd hrsv hne
  · simp [h, hop]
  · simp [h, hop]

/-- Settles O2: the decoder answers a command only by reading its opcode's row. -/
theorem decodedIsWellFormed : Obligations.DecodedIsWellFormed := by
  intro w i hdec
  rcases decode_cases w with ⟨_, h⟩ | ⟨_, _, h⟩ | ⟨o, hrsv, hop, h⟩
  · simp [h] at hdec
  · simp [h] at hdec
  · obtain rfl : decodeRow o w = i := by simpa [h] using hdec
    exact ⟨decodeRow_wf o w, by rw [decodeRow_opcode, Opcode.byte_of_ofByte hop], hrsv⟩

/-- Settles O3: a row reads its own fields and no other. -/
theorem decodeReadsRows : Obligations.DecodeReadsRows := by
  intro w hrsv
  exact ⟨decode_of_row .setpix hrsv, decode_of_row .getpix hrsv, decode_of_row .clear hrsv,
    decode_of_row .snapshot hrsv, decode_of_row .restore hrsv,
    fun hop => rotationOperand_fieldA w ▸ decode_of_row .setrot hrsv hop,
    decode_of_row .fillrect hrsv, decode_of_row .hline hrsv, decode_of_row .rawhline hrsv,
    decode_of_row .rawvline hrsv, decode_of_row .refresh hrsv, decode_of_row .cleartx hrsv⟩

/-- Of the 256 opcodes 244 are of no row (R56). -/
theorem illegalOpcodes_length :
    ((List.range 256).filter fun n => (Opcode.ofByte (BitVec.ofNat 8 n)).isNone).length = 244 := by
  decide +kernel

/-- Settles O4: each refusal has its one reason, and no row is missing from the twelve values. -/
theorem decodeRejects : Obligations.DecodeRejects :=
  ⟨fun _ => decode_eq_reservedBits_iff,
    fun _ hrsv => (decode_eq_unknownOpcode_iff hrsv).trans Opcode.ofByte_eq_none_iff,
    illegalOpcodes_length⟩

/-! The encoder: its word is of the command's row and carries the operands the row reads (R63). -/

theorem encode_eq_pack (i : Instr) : ∃ code a b c d, encode i = pack i.opcode code a b c d := by
  cases i <;> exact ⟨_, _, _, _, _, rfl⟩

/-- The row of a command's own word gives the command back. -/
theorem decodeRow_encode {i : Instr} (hwf : i.wf = true) : decodeRow i.opcode (encode i) = i := by
  cases i with
  | clear | snapshot | restore | refresh | cleartx => rfl
  | setrot r => simp [Instr.opcode, encode, decodeRow, pack_fields]
  | setpix x y | getpix x y =>
    obtain ⟨hx, hy⟩ : fitsOperand x = true ∧ fitsOperand y = true := by simpa [Instr.wf] using hwf
    simp [Instr.opcode, encode, decodeRow, pack_fields, signedOperand_operandField, hx, hy]
  | hline x y w | rawhline x y w | rawvline x y w =>
    obtain ⟨⟨hx, hy⟩, hw⟩ : (fitsOperand x = true ∧ fitsOperand y = true) ∧ fitsOperand w = true := by
      simpa [Instr.wf] using hwf
    simp [Instr.opcode, encode, decodeRow, pack_fields, signedOperand_operandField, hx, hy, hw]
  | fillrect x y w h =>
    obtain ⟨⟨⟨hx, hy⟩, hw⟩, hh⟩ : ((fitsOperand x = true ∧ fitsOperand y = true) ∧ fitsOperand w = true) ∧
        fitsOperand h = true := by
      simpa [Instr.wf] using hwf
    simp [Instr.opcode, encode, decodeRow, pack_fields, signedOperand_operandField, hx, hy, hw, hh]

/-- Settles O1: the encoder's word has zero reserved bits and the command's opcode, so the decoder reads the command's
own row. -/
theorem decodeOfEncode : Obligations.DecodeOfEncode := by
  intro i hwf
  obtain ⟨code, a, b, c, d, hpack⟩ := encode_eq_pack i
  obtain ⟨hop, hrsv⟩ := Laws.WordFormat.of_pack rfl hpack
  rw [decode_of_row i.opcode hrsv hop, decodeRow_encode hwf]

end Sys2Proof

namespace Sys2Proof.Machine

open Sys2Proof

/-! An illegal word. -/

/-- A word with reserved bits set or an opcode of no row decodes to no command. -/
theorem decode_illegal {w : CmdWord} (h : fieldRsv w ≠ 0#5 ∨ Opcode.ofByte (fieldOp w) = none) :
    ∃ e, decode w = .error e := by
  rcases decode_cases w with ⟨_, hdec⟩ | ⟨_, _, hdec⟩ | ⟨o, hrsv, hop, _⟩
  · exact ⟨_, hdec⟩
  · exact ⟨_, hdec⟩
  · simp [hrsv, hop] at h

/-- Settles O7: the decoder refuses the word, and the idle SMDC rejects it. -/
theorem stepAnswersIllegal : Obligations.StepAnswersIllegal := by
  intro s w rest hp hidle hin hillegal
  obtain ⟨e, hdec⟩ := decode_illegal (hillegal.imp_right Opcode.ofByte_eq_none_iff.mpr)
  refine ⟨{ s with inputs := rest }.rejectWord, ?_, ?_, rfl⟩
  · rw [step, State.work_idle hp hidle, State.takeInput_illegal hin hdec]
  · simpa [State.cmdReady, State.busy] using hidle

/-! The bytes of a refresh frame (R59). -/

/-- Bytes sent inside a frame stand among the frame's bytes as they are. -/
@[simp] theorem frameBytes_txEvents_emitBytes (bytes : List Byte) (ops : List TxOp) :
    frameBytes (txEvents (emitBytes bytes ++ ops)) = bytes ++ frameBytes (txEvents ops) := by
  induction bytes with
  | nil => rfl
  | cons b bytes ih => exact congrArg (b :: ·) ih

/-- The bytes R59 lists, scan line by scan line. -/
theorem refreshBytes_eq (s : State) :
    refreshBytes s = [vcomByte s.params s.vcom ||| s.params.writeCommand] ++
      (List.range s.params.rawH).flatMap s.lineBytes ++ [0x00#8] := by
  have hline : s.lineBytes = fun line => [BitVec.ofNat 8 (line + 1)] ++
      ((List.range (rowBytes s.params)).map fun k => s.byte (line * rowBytes s.params + k)) ++ [0x00#8] := by
    funext line
    simp [State.lineBytes, lineIndexes]
  rw [refreshBytes, hline]

/-- The bytes of REFRESH's operations are those R59 lists. -/
theorem frameBytes_refreshOps (s : State) : frameBytes (txEvents (refreshOps s)) = refreshBytes s := by
  simp [refreshOps_eq, refreshBytes_eq, txEvents, frameBytes]

/-- Settles O44: two bytes, and `RAW_H` scan lines of `ROW_BYTES + 2` each. -/
theorem refreshByteCount : Obligations.RefreshByteCount := by
  intro s
  have hlines : ((List.range s.params.rawH).flatMap s.lineBytes).length = s.params.rawH * (rowBytes s.params + 2) := by
    simp [State.lineBytes, lineIndexes]
  rw [frameBytes_refreshOps, refreshBytes_eq, List.length_append, List.length_append, hlines]
  simp only [List.length_singleton]
  omega

end Sys2Proof.Machine
end

section
/-! PROOFS. The BitFrameBuffer (40_framebuffer.md): the rotation and its inverse, the one bit of SETPIX and GETPIX, the
bytes of CLEAR and RESTORE, what SNAPSHOT sends, and how SNAPSHOT and RESTORE complete or wait. -/

namespace Sys2Proof.Machine

open Sys2Proof

/-! Rotation (R81, R83, R90). -/

/-- Settles O27, by cases on the rotation: `unrotate` undoes each row of the table within the raw display. -/
theorem rotateIsBijection : Obligations.RotateIsBijection := by
  intro p r
  constructor
  · intro x y hin
    simp only [inBounds, Bool.and_eq_true, decide_eq_true_eq] at hin
    cases r <;> simp only [rotate, unrotate, width, height, Prod.mk.injEq, and_true, true_and] at hin ⊢ <;> omega
  · intro xr yr hx0 hx hy0 hy
    simp only [inBounds, Bool.and_eq_true, decide_eq_true_eq]
    cases r <;> simp only [rotate, unrotate, width, height, Prod.mk.injEq, and_true, true_and] <;> omega

/-- Settles O26: SETROT is its row's command, and the geometry wires are read from the rotation it writes. -/
theorem setrotWritesRotation : Obligations.SetrotWritesRotation := by
  refine ⟨fun w hrsv hop => rotationOperand_fieldA w ▸ decode_of_row .setrot hrsv hop, fun s r hidle => ?_⟩
  refine ⟨_, State.whenIdle_idle _ hidle, rfl, rfl, ?_, ?_⟩
  · rintro (rfl | rfl) <;> exact ⟨rfl, rfl⟩
  · rintro (rfl | rfl) <;> exact ⟨rfl, rfl⟩

/-- The raw pixel of an in-bounds point is its image (R81). -/
theorem imageOf_raw {p : Params} {r : Rotation} {x y : Int} (h : inBounds p r x y = true) :
    imageOf p r x y (rawX p r x y) (rawY p r x y) := by
  obtain ⟨_, _, hx, hy⟩ := rotate_in_range h
  exact ⟨h, Prod.ext hx.symm hy.symm⟩

/-- A point has one image, its raw pixel. -/
theorem imageOf_eq_raw {p : Params} {r : Rotation} {x y : Int} {xr yr : Nat} (h : imageOf p r x y xr yr) :
    rawX p r x y = xr ∧ rawY p r x y = yr := by
  simp [rawX, rawY, h.2]

/-! One pixel: SETPIX writes it and GETPIX reads it (R82, R84). -/

/-- A stored pixel is bit `xr mod 8` of its byte (R35). -/
theorem State.pixel_eq_getLsbD (s : State) (xr yr : Nat) :
    s.pixel xr yr = (s.byte (byteIndex s.params xr yr)).getLsbD (xr % 8) :=
  bitOf_eq _ _

/-- A single-bit write sets the one bit of its pixel and keeps every other (R34). -/
theorem Memory.getLsbD_edit_bitEdit {m : Memory} (p : Params) (xr yr : Nat) (v : Bool) (i : Nat) {b : Nat}
    (hm : m.wf = true) (hb : b < 8) :
    ((m.edit (bitEdit p xr yr v)).read i).getLsbD b =
      if i = byteIndex p xr yr ∧ b = xr % 8 then v else (m.read i).getLsbD b := by
  rw [Memory.read_edit _ _ hm]
  by_cases hi : i = byteIndex p xr yr
  · have hval : ∀ v : Bool, ∀ b < 8, (if v then 0xFF#8 else 0x00#8 : Byte).getLsbD b = v := by decide
    simp [bitEdit, hi, hval v b hb]
  · simp [bitEdit, hi]

/-- SETPIX of a point with an image writes the one bit of that raw pixel (R82). -/
theorem drawEdits_setpix_of_imageOf {p : Params} {r : Rotation} {x y : Int} {xr yr : Nat} (code : Code)
    (h : imageOf p r x y xr yr) :
    Instr.drawEdits p r (.setpix x y code) = [bitEdit p xr yr (colourBit code xr yr)] := by
  obtain ⟨hx, hy⟩ := imageOf_eq_raw h
  simp [Instr.drawEdits, setpixEdits, h.1, hx, hy]

/-- SETPIX out of bounds writes nothing (R82). -/
theorem drawEdits_setpix_of_not_inBounds {p : Params} {r : Rotation} {x y : Int} (code : Code)
    (h : inBounds p r x y = false) : Instr.drawEdits p r (.setpix x y code) = [] := by
  simp [Instr.drawEdits, setpixEdits, h]

/-- On an idle SMDC a drawing command makes all its writes and answers `DONE` (R133). -/
theorem exec_draws_of_idle {i : Instr} {s : State} (hi : i.draws = true) (hidle : s.busy = false) :
    exec i s = .next ({ s with storage := s.storage.edits (i.drawEdits s.params s.rot) }.respond .done) := by
  rw [exec_draws hi, State.whenIdle_idle _ hidle, State.draw_eq (drawEdits_in_range s.params s.rot i)]

/-- On an idle SMDC, GETPIX of a point with an image answers the stored raw pixel (R84). -/
theorem exec_getpix_of_imageOf {s : State} {x y : Int} {xr yr : Nat} (hidle : s.busy = false)
    (h : imageOf s.params s.rot x y xr yr) :
    exec (.getpix x y) s = .next (s.respond (.pixel (s.pixel xr yr))) := by
  obtain ⟨hx, hy⟩ := imageOf_eq_raw h
  refine (execGetpix_eq x y s).trans ?_
  rw [State.whenIdle_idle _ hidle, if_pos h.1, hx, hy]

/-- Settles O18: in bounds the one write is the bit of the image (`Memory.getLsbD_edit_bitEdit`), out of bounds there is
none. -/
theorem setpixStoresOnePixel : Obligations.SetpixStoresOnePixel := by
  intro s x y code hidle hm
  constructor
  · intro hin
    obtain ⟨hx, hy, _⟩ := rotate_in_range hin
    have himage := imageOf_raw hin
    refine ⟨_, _, _, exec_draws_of_idle rfl hidle, himage, hx, hy, rfl, fun i b hb => ?_⟩
    rw [drawEdits_setpix_of_imageOf code himage]
    exact Memory.getLsbD_edit_bitEdit s.params _ _ _ i hm hb
  · intro hout
    rw [exec_draws_of_idle rfl hidle, drawEdits_setpix_of_not_inBounds code hout]
    rfl

/-- Settles O19: in bounds the answer is the bit of the image. -/
theorem getpixReadsOnePixel : Obligations.GetpixReadsOnePixel := by
  intro s x y hidle
  constructor
  · intro hin
    refine ⟨_, _, imageOf_raw hin, ?_⟩
    rw [exec_getpix_of_imageOf hidle (imageOf_raw hin), State.pixel_eq_getLsbD]
    rfl
  · intro hout
    refine (execGetpix_eq x y s).trans ?_
    rw [State.whenIdle_idle _ hidle, hout]
    rfl

/-- Settles O20: SETPIX keeps the display and the rotation, so GETPIX reads the bit that was written. -/
theorem getpixAfterSetpix : Obligations.GetpixAfterSetpix := by
  intro s t x y code xr yr hm himage h
  have hidle : s.busy = false := (exec_eq_next h).1
  have ht := exec_draws_eq_next rfl h
  have hidle' : t.busy = false := by
    rw [ht]
    exact hidle
  have himage' : imageOf t.params t.rot x y xr yr := by
    rw [ht]
    exact himage
  have hpixel : t.pixel xr yr = colourBit code xr yr := by
    rw [State.pixel_eq_getLsbD, ht, drawEdits_setpix_of_imageOf code himage]
    exact (Memory.getLsbD_edit_bitEdit s.params xr yr _ _ hm (Nat.mod_lt _ (by decide))).trans (if_pos ⟨rfl, rfl⟩)
  rw [exec_getpix_of_imageOf hidle' himage', hpixel]
  rfl

/-! Whole bytes: what CLEAR and RESTORE store (R85, R89). -/

/-- A plain write is `MemWrite` (R36, R38). -/
theorem Memory.edit_plainWrite (m : Memory) (i : Nat) (v : Byte) : m.edit (plainWrite i v) = m.write i v := by
  simp [Memory.edit, plainWrite, maskedByte_full]

/-- Payload bytes are stored one after the other, in ascending index (R87). -/
theorem Memory.edits_payloadEdits_cons (m : Memory) (n : Nat) (v : Byte) (bytes : List Byte) :
    m.edits (payloadEdits n (v :: bytes)) = (m.write n v).edits (payloadEdits (n + 1) bytes) :=
  congrArg (Memory.edits · _) (m.edit_plainWrite n v)

/-- Payload bytes stored from index `n` on are read back there, and every other byte is as before (R89). -/
theorem Memory.read_edits_payloadEdits {m : Memory} (n : Nat) (bytes : List Byte) (i : Nat) (hm : m.wf = true) :
    (m.edits (payloadEdits n bytes)).read i =
      if n ≤ i ∧ i < n + bytes.length then bytes.getD (i - n) 0x00#8 else m.read i := by
  induction bytes generalizing m n with
  | nil => exact (if_neg (by simp)).symm
  | cons v bytes ih =>
    rw [Memory.edits_payloadEdits_cons, ih (n + 1) (Memory.write_wf n v hm), Memory.read_write n i v hm,
      List.length_cons]
    obtain hlt | rfl | hgt := Nat.lt_trichotomy i n
    · rw [if_neg (by omega), if_neg (by omega), if_neg (by omega)]
    · simp
    · have hsub : i - n = i - (n + 1) + 1 := by omega
      have hiff : (n ≤ i ∧ i < n + (bytes.length + 1)) ↔ (n + 1 ≤ i ∧ i < n + 1 + bytes.length) := by omega
      rw [if_neg (show ¬ i = n by omega), hsub, List.getD_cons_succ]
      simp only [hiff]

/-- CLEAR stores `N` bytes 0xFF from index 0 on (R85). -/
theorem whiteEdits_eq_payloadEdits (p : Params) :
    whiteEdits p = payloadEdits 0 (List.replicate (storageSize p) 0xFF#8) := by
  apply List.ext_getElem <;> simp [whiteEdits, payloadEdits]

/-- Settles O21: CLEAR's payload covers every index of storage. -/
theorem clearWhitensStorage : Obligations.ClearWhitensStorage := by
  intro s hidle hm
  refine ⟨_, (State.whenIdle_idle _ hidle).trans (State.draw_eq whiteEdits_in_range), rfl, fun i => ?_⟩
  rw [whiteEdits_eq_payloadEdits]
  refine (Memory.read_edits_payloadEdits 0 _ i hm).trans ?_
  by_cases hi : i < storageSize s.params <;> simp [hi, State.byte]

/-! A step of a busy SMDC (R22, R193). -/

/-- On legal parameters a busy step is what the command in progress answers, if that completes the command or no
reset is presented. -/
theorem step_of_resume {s t : State} (hp : s.params.wf = true) (hbusy : s.busy = true) (h : s.resume = .next t)
    (hgo : t.busy = false ∨ t.resetAsserted = false) : step s = .next t := by
  have hno : (t.busy && t.resetAsserted) = false := by rcases hgo with hgo | hgo <;> simp [hgo]
  rw [step, State.work_busy hp hbusy]
  simp only [State.continueCommand, h, andThen_next, hno, Bool.false_eq_true, if_false]

/-! SNAPSHOT (R88). -/

/-- SNAPSHOT from byte `n` on, the rest of it taken, completes with `DATA`. -/
theorem State.streamFrom_of_covers {s : State} {n : Nat} (hn : n ≤ storageSize s.params)
    (h : s.dataOutReady.covers (storageSize s.params - n) = true) :
    s.streamFrom n = .next ((s.sent n (storageSize s.params - n)).finish
      (.data ((List.range (storageSize s.params)).map s.byte))) := by
  rw [State.streamFrom_eq]
  simp only [Readiness.grant_of_covers h]
  rw [if_neg (by omega)]

/-- SNAPSHOT from byte `n` on, only `k` more bytes taken, waits after them. -/
theorem State.streamFrom_of_upTo {s : State} {n k : Nat} (hk : k < storageSize s.params - n)
    (hready : s.dataOutReady = .upTo k) :
    s.streamFrom n = .next ((s.sent n k).wait (.streaming (n + k))) := by
  have hgrant : s.dataOutReady.grant (storageSize s.params - n) = k := by
    rw [hready]
    exact Nat.min_eq_left hk.le
  rw [State.streamFrom_eq]
  simp only [hgrant]
  rw [if_pos (by omega)]

/-- A SNAPSHOT that waits has used up what the host would take. -/
theorem State.sent_of_upTo {s : State} {k : Nat} (n : Nat) (hready : s.dataOutReady = .upTo k) :
    s.sent n k = { s with dataOut := s.dataOut ++ (List.range' n k).map s.byte, dataOutReady := .upTo 0 } := by
  simp [State.sent, hready, Readiness.spend]

/-- Settles O22: the port covers all `N` bytes (`State.streamFrom_of_covers`), or takes `n < N` of them
(`State.streamFrom_of_upTo`). -/
theorem snapshotStreamsStorage : Obligations.SnapshotStreamsStorage := by
  intro s hidle
  have hseq : s.seq = .idle := State.busy_eq_false.mp hidle
  have hexec : exec .snapshot s = s.streamFrom 0 := State.whenIdle_idle _ hidle
  constructor
  · intro hcovers
    rw [hexec, State.streamFrom_of_covers (Nat.zero_le _) hcovers]
    simp [State.sent, State.finish, hseq, List.range_eq_range']
  · intro n hn hready
    rw [hexec, State.streamFrom_of_upTo hn hready, State.sent_of_upTo 0 hready]
    simp [State.wait, List.range_eq_range']

/-- Settles O58, as O22 from byte `n` on: the step is the SNAPSHOT going on (`step_of_resume`). -/
theorem snapshotCompletesLater : Obligations.SnapshotCompletesLater := by
  intro s n hp hseq hn
  have hbusy : s.busy = true := by simp [State.busy, hseq]
  have hresume : s.resume = s.streamFrom n := by simp [State.resume, hseq]
  constructor
  · intro hcovers
    exact step_of_resume hp hbusy (hresume.trans (State.streamFrom_of_covers hn.le hcovers)) (.inl rfl)
  · intro k hk hready hreset
    rw [step_of_resume hp hbusy (hresume.trans (State.streamFrom_of_upTo hk hready)) (.inr hreset),
      State.sent_of_upTo n hready]
    rfl

/-! RESTORE (R89). -/

@[simp] theorem State.wait_byte (s : State) (q : Sequencer) (i : Nat) : (s.wait q).byte i = s.byte i := rfl

/-- RESTORE from byte `n` on, the rest offered, completes with `DONE`. -/
theorem State.loadFrom_of_enough {s : State} {n : Nat} (h : storageSize s.params - n ≤ s.dataIn.length) :
    s.loadFrom n = .next ((s.loaded n).finish .done) := by
  have hlen : (s.offered n).length = storageSize s.params - n := List.length_take_of_le h
  rw [State.loadFrom_eq, if_neg (by omega)]

/-- Bytes no more than the rest are all stored. -/
theorem State.offered_of_short {s : State} {n : Nat} (h : s.dataIn.length ≤ storageSize s.params - n) :
    s.offered n = s.dataIn := List.take_of_length_le h

/-- RESTORE from byte `n` on, offered less than the rest, waits for what is then missing. -/
theorem State.loadFrom_of_short {s : State} {n : Nat} (h : s.dataIn.length < storageSize s.params - n) :
    s.loadFrom n = .next ((s.loaded n).wait (.restoring (n + s.dataIn.length))) := by
  rw [State.loadFrom_eq, State.offered_of_short h.le, if_pos (by omega)]

/-- The bytes offered stand from index `n` on, every other byte is as before. -/
theorem State.loaded_byte {s : State} (n i : Nat) (hm : s.storage.wf = true) :
    (s.loaded n).byte i =
      if n ≤ i ∧ i < n + (s.offered n).length then s.dataIn.getD (i - n) 0x00#8 else s.byte i := by
  refine (Memory.read_edits_payloadEdits n _ i hm).trans ?_
  split
  case isTrue hi =>
    have hlen : (s.offered n).length ≤ storageSize s.params - n := List.length_take_le _ _
    have hrest : i - n < storageSize s.params - n := by omega
    simp [State.offered, hrest]
  case isFalse => rfl

/-- What storage holds when the rest was offered. -/
theorem State.loaded_byte_of_enough {s : State} {n : Nat} (i : Nat) (hm : s.storage.wf = true)
    (hn : n ≤ storageSize s.params) (h : storageSize s.params - n ≤ s.dataIn.length) :
    (s.loaded n).byte i =
      if n ≤ i ∧ i < storageSize s.params then s.dataIn.getD (i - n) 0x00#8 else s.byte i := by
  have hend : n + (s.offered n).length = storageSize s.params := by
    rw [State.offered, List.length_take_of_le h, Nat.add_sub_of_le hn]
  rw [State.loaded_byte n i hm, hend]

/-- What storage holds when less than the rest was offered. -/
theorem State.loaded_byte_of_short {s : State} {n : Nat} (i : Nat) (hm : s.storage.wf = true)
    (h : s.dataIn.length ≤ storageSize s.params - n) :
    (s.loaded n).byte i = if n ≤ i ∧ i < n + s.dataIn.length then s.dataIn.getD (i - n) 0x00#8 else s.byte i := by
  rw [State.loaded_byte n i hm, State.offered_of_short h]

/-- A RESTORE offered less than the rest takes every byte offered. -/
theorem State.loaded_dataIn_of_short {s : State} {n : Nat} (h : s.dataIn.length ≤ storageSize s.params - n) :
    (s.loaded n).dataIn = [] :=
  List.drop_eq_nil_of_le h

/-- Settles O23: the host offers all `N` bytes (`State.loadFrom_of_enough`), or fewer (`State.loadFrom_of_short`). -/
theorem restoreLoadsStorage : Obligations.RestoreLoadsStorage := by
  intro s hidle hm
  have hseq : s.seq = .idle := State.busy_eq_false.mp hidle
  have hexec : exec .restore s = s.loadFrom 0 := State.whenIdle_idle _ hidle
  constructor
  · intro henough
    refine ⟨_, hexec.trans (State.loadFrom_of_enough henough), ?_, fun i => ?_⟩
    · simp [State.finish, State.loaded, hseq]
    · simpa using State.loaded_byte_of_enough (n := 0) i hm (Nat.zero_le _) henough
  · intro hshort
    refine ⟨_, hexec.trans (State.loadFrom_of_short hshort), ?_, fun i => ?_⟩
    · rw [← State.loaded_dataIn_of_short (n := 0) hshort.le]
      simp [State.wait, State.loaded]
    · simpa using State.loaded_byte_of_short (n := 0) i hm hshort.le

/-- Settles O24, as O23 from byte `n` on: the step is the RESTORE going on (`step_of_resume`). -/
theorem restoreCompletesLater : Obligations.RestoreCompletesLater := by
  intro s n hp hm hseq hn
  have hbusy : s.busy = true := by simp [State.busy, hseq]
  have hresume : s.resume = s.loadFrom n := by simp [State.resume, hseq]
  constructor
  · intro henough
    exact ⟨_, step_of_resume hp hbusy (hresume.trans (State.loadFrom_of_enough henough)) (.inl rfl), rfl,
      fun i => State.loaded_byte_of_enough i hm hn.le henough⟩
  · intro hshort hreset
    refine ⟨_, step_of_resume hp hbusy (hresume.trans (State.loadFrom_of_short hshort)) (.inr hreset), ?_,
      fun i => State.loaded_byte_of_short i hm hshort.le⟩
    rw [← State.loaded_dataIn_of_short hshort.le]
    rfl

/-! RESTORE of a SNAPSHOT (R89). -/

/-- At and above the bound of its listed addresses a storage is unlisted. -/
theorem Memory.read_of_below {m : Memory} {n i : Nat} (h : m.below n = true) (hi : n ≤ i) :
    m.read i = Memory.unlisted := by
  induction m with
  | nil => rfl
  | cons c m ih =>
    obtain ⟨hc, hrest⟩ : c.1 < n ∧ Memory.below n m = true := by simpa [Memory.below] using h
    rw [Memory.read, if_pos (by omega), ih hrest]

/-- The bytes of a SNAPSHOT that answered `DATA` are those of storage (R88). -/
theorem snapshot_data {s s' : State} {bytes : List Byte} (h : exec .snapshot s = .next s')
    (hdata : s'.responses = s.responses ++ [.data bytes]) :
    bytes = (List.range (storageSize s.params)).map s.byte := by
  obtain ⟨_, hstream⟩ := State.whenIdle_eq_next.mp h
  rw [State.streamFrom_eq] at hstream
  cases hstream
  split at hdata
  case isTrue => simp [State.sent] at hdata
  case isFalse => simpa [State.sent] using hdata.symm

/-- Settles O25: storage is the restored bytes below `N` and unlisted from there on, and canonical storages that read
alike are equal (`Memory.ext_wf`). -/
theorem restoreOfSnapshot : Obligations.RestoreOfSnapshot := by
  intro s s' t t' bytes more hs ht hparams hsnap hdata hin hrestore
  obtain ⟨_, hswf, hsbelow, _⟩ := hs
  obtain ⟨_, htwf, htbelow, _⟩ := ht
  obtain rfl := snapshot_data hsnap hdata
  have henough : storageSize t.params - 0 ≤ t.dataIn.length := by simp [hin, hparams]
  obtain ⟨_, hload⟩ := State.whenIdle_eq_next.mp hrestore
  rw [State.loadFrom_of_enough henough] at hload
  cases hload
  refine Memory.ext_wf (Memory.edits_wf _ htwf) hswf fun i => ?_
  refine (State.loaded_byte_of_enough i htwf (Nat.zero_le _) henough).trans ?_
  rw [hparams] at htbelow ⊢
  by_cases hi : i < storageSize s.params
  · simp [hi, hin, List.getElem?_append_left, State.byte]
  · have hi' := Nat.le_of_not_lt hi
    rw [if_neg (by omega), State.byte, Memory.read_of_below htbelow hi', Memory.read_of_below hsbelow hi']

end Sys2Proof.Machine
end

section
/-! PROOFS. The Dither Pattern Table (41_dither.md): every texture is one tile that repeats, so a fact about all raw
positions and byte columns is checked on one tile. -/

namespace Sys2Proof.Machine

open Sys2Proof

/-! The table (R103, R110). -/

/-- Settles O30, by cases on the code: each pattern reads its coordinates by residues that the period keeps. -/
theorem textureIsPeriodic : Obligations.TextureIsPeriodic := by
  intro code xr yr
  cases code with
  | black | white => rfl
  | gray50 => simp [colourBit, patternGray50, period]
  | dark | light =>
    have hparity : yr % 4 % 2 = yr % 2 := by omega
    have hshift : yr % 4 / 2 % 2 = yr / 2 % 2 := by omega
    simp [colourBit, patternDark, patternLight, period, hparity, hshift]
  | fine =>
    have hxr : xr % 4 % 2 = xr % 2 := by omega
    have hyr : yr % 4 % 2 = yr % 2 := by omega
    simp [colourBit, patternFine, period, hxr, hyr]
  | diag | diagr => simp [colourBit, patternDiag, patternDiagr, period]

/-- Settles O31, by the parity of the row, on which both codes branch. -/
theorem lightIsComplementOfDark : Obligations.LightIsComplementOfDark := by
  intro xr yr
  by_cases hodd : yr % 2 = 1
  · simp [colourBit, patternLight, patternDark, hodd]
  · simp [colourBit, patternLight, patternDark, hodd]

/-! The fill byte (R108, R109). -/

/-- A fill byte repeats with its code's period, in rows and in byte columns. -/
theorem fillByte_mod_period (code : Code) (yr k : Nat) :
    fillByte code yr k = fillByte code (yr % period code) (k % period code) := by
  refine BitVec.eq_of_getLsbD_eq fun b hb => ?_
  have hcol : (8 * (k % period code) + b) % period code = (8 * k + b) % period code :=
    ((Nat.mod_modEq k (period code)).mul_left 8).add_right b
  rw [fillByte_getLsbD _ _ _ _ hb, fillByte_getLsbD _ _ _ _ hb, textureIsPeriodic code (8 * k + b),
    textureIsPeriodic code (8 * (k % period code) + b), hcol, Nat.mod_mod]

/-- R109's table repeats with the code's period, in rows and in byte columns. -/
theorem fillByteClosed_mod_period (code : Code) (yr k : Nat) :
    fillByteClosed code yr k = fillByteClosed code (yr % period code) (k % period code) := by
  cases code with
  | black | white => rfl
  | gray50 | dark | light | fine => simp [fillByteClosed, byRow4, period]
  | diag => simp [fillByteClosed, period]
  | diagr =>
    have hcol : (2 + k % 3 + 2 * (yr % 3)) % 3 = (2 + k + 2 * (yr % 3)) % 3 := by omega
    simp [fillByteClosed, period, hcol]

/-- R109 on one tile of each texture. -/
theorem fillByte_eq_closed_on_tile (code : Code) :
    ∀ yr < period code, ∀ k < period code, fillByte code yr k = fillByteClosed code yr k := by
  cases code <;> decide

/-- Settles O29: fill byte and table both repeat with the code's period, and they agree on one tile. -/
theorem fillByteClosedForm : Obligations.FillByteClosedForm := by
  intro code yr k
  have hpos : 0 < period code := by cases code <;> decide
  rw [fillByte_mod_period, fillByteClosed_mod_period]
  exact fillByte_eq_closed_on_tile code _ (Nat.mod_lt yr hpos) _ (Nat.mod_lt k hpos)

end Sys2Proof.Machine
end

section
/-! PROOFS. The Rasterizer (42_rasterizer.md). A list of masked writes paints a pixel set when its masks cover the
bits of exactly those pixels, each with its colour bit (R133). What each byte-level writer paints is composed from its
single writes, and every statement about a drawing command follows from the set it paints. -/

namespace Sys2Proof.Machine

open Sys2Proof

/-! The pixel a bit belongs to (R31, R32). -/

/-- Two raw pixels of the display that share a byte and a bit are one. -/
theorem byteIndex_injective {p : Params} {x y x' y' : Nat} (hx : x < p.rawW) (hx' : x' < p.rawW)
    (hindex : byteIndex p x y = byteIndex p x' y') (hbit : x % 8 = x' % 8) : x = x' ∧ y = y' := by
  have hcol := column_of_x hx
  have hcol' := column_of_x hx'
  have hrow (c z : Nat) (hc : c < rowBytes p) : (c + z * rowBytes p) / rowBytes p = z := by
    rw [Nat.add_mul_div_right _ _ (by omega), Nat.div_eq_of_lt hc, Nat.zero_add]
  have hy : y = y' := by
    rw [← hrow _ y hcol, ← hrow _ y' hcol']
    exact congrArg (· / rowBytes p) hindex
  subst hy
  have hdiv : x / 8 = x' / 8 := Nat.add_right_cancel hindex
  exact ⟨by omega, rfl⟩

/-- The raw pixels whose image is a logical point are read off the inverse rotation (R83). -/
theorem imageOf_iff_unrotate {p : Params} {r : Rotation} {x y : Int} {xr yr : Nat} :
    imageOf p r x y xr yr ↔ (xr < p.rawW ∧ yr < p.rawH) ∧ unrotate p r xr yr = (x, y) := by
  obtain ⟨hforth, hback⟩ := rotateIsBijection p r
  constructor
  · rintro ⟨hin, hrot⟩
    obtain ⟨_, hx, _, hy, hinv⟩ := hrot ▸ hforth x y hin
    exact ⟨⟨Int.ofNat_lt.mp hx, Int.ofNat_lt.mp hy⟩, hinv⟩
  · rintro ⟨⟨hx, hy⟩, hinv⟩
    have := hback xr yr (by omega) (by omega) (by omega) (by omega)
    rwa [hinv] at this

/-! One bit after a list of masked writes (R36). -/

/-- The masked write covers bit `b` of byte `j`. -/
abbrev Edit.Covers (e : Edit) (j b : Nat) : Prop := e.index = j ∧ e.mask.getLsbD b = true

/-- One masked write sets the bits it covers and keeps every other. -/
theorem Memory.getLsbD_edit {m : Memory} (e : Edit) (j b : Nat) (hm : m.wf = true) :
    ((m.edit e).read j).getLsbD b = if e.Covers j b then e.val.getLsbD b else (m.read j).getLsbD b := by
  rw [Memory.read_edit _ _ hm]
  by_cases hj : e.index = j
  · simp [Edit.Covers, hj]
  · simp [Edit.Covers, hj, Ne.symm hj]

/-- A bit whose covering writes all carry one value holds it if there is any such write, else it is kept. -/
theorem Memory.getLsbD_edits {m : Memory} {es : List Edit} {j b : Nat} {v : Bool} (hm : m.wf = true)
    (hval : ∀ e ∈ es, e.Covers j b → e.val.getLsbD b = v) :
    ((m.edits es).read j).getLsbD b = if ∃ e ∈ es, e.Covers j b then v else (m.read j).getLsbD b := by
  induction es generalizing m with
  | nil => simp
  | cons e es ih =>
    have hwf : (m.edit e).wf = true := Memory.write_wf _ _ hm
    refine (ih hwf fun d hd => hval d (List.mem_cons_of_mem _ hd)).trans ?_
    rw [Memory.getLsbD_edit e j b hm]
    by_cases he : e.Covers j b
    · rw [if_pos he, hval e List.mem_cons_self he, ite_self, if_pos ⟨e, List.mem_cons_self, he⟩]
    · simp [he]

/-! Painting a set of pixels (R133). -/

/-- The masked writes cover the bits of the pixels of `P`, all on the raw canvas, and no others, and carry at each its
colour bit. -/
structure Paints (p : Params) (code : Code) (es : List Edit) (P : Nat → Nat → Prop) : Prop where
  canvas : ∀ xr yr, P xr yr → xr < p.rawW ∧ yr < p.rawH
  covers : ∀ xr yr, P xr yr → ∃ e ∈ es, e.Covers (byteIndex p xr yr) (xr % 8)
  only : ∀ e ∈ es, ∀ j b, e.Covers j b →
    ∃ xr yr, P xr yr ∧ (j = byteIndex p xr yr ∧ b = xr % 8) ∧ e.val.getLsbD b = colourBit code xr yr

section
variable {p : Params} {code : Code} {es fs : List Edit} {P Q : Nat → Nat → Prop} {m : Memory}

/-- Every pixel painted holds its colour bit. -/
theorem Paints.getLsbD_of_mem (h : Paints p code es P) (hm : m.wf = true) {xr yr : Nat} (hP : P xr yr) :
    ((m.edits es).read (byteIndex p xr yr)).getLsbD (xr % 8) = colourBit code xr yr := by
  rw [Memory.getLsbD_edits (v := colourBit code xr yr) hm, if_pos (h.covers xr yr hP)]
  intro e he hcov
  obtain ⟨xr', yr', hP', ⟨hj, hb⟩, hval⟩ := h.only e he _ _ hcov
  obtain ⟨rfl, rfl⟩ := byteIndex_injective (h.canvas _ _ hP).1 (h.canvas _ _ hP').1 hj hb
  exact hval

/-- A bit of no pixel painted is kept. -/
theorem Paints.getLsbD_of_notMem (h : Paints p code es P) (hm : m.wf = true) {j b : Nat}
    (hout : ∀ xr yr, P xr yr → ¬ (j = byteIndex p xr yr ∧ b = xr % 8)) :
    ((m.edits es).read j).getLsbD b = (m.read j).getLsbD b := by
  have hnone : ∀ e ∈ es, ¬ e.Covers j b := by
    intro e he hcov
    obtain ⟨xr, yr, hP, hbit, _⟩ := h.only e he j b hcov
    exact hout xr yr hP hbit
  rw [Memory.getLsbD_edits (v := false) hm fun e he hcov => absurd hcov (hnone e he), if_neg (by simpa using hnone)]

/-- Lists of writes that paint the same pixels leave the same storage. -/
theorem Paints.edits_eq (h : Paints p code es P) (h' : Paints p code fs P) (hm : m.wf = true) :
    m.edits es = m.edits fs := by
  refine Memory.ext_wf (Memory.edits_wf es hm) (Memory.edits_wf fs hm) fun j => ?_
  refine BitVec.eq_of_getLsbD_eq fun b _ => ?_
  by_cases hbit : ∃ xr yr, P xr yr ∧ j = byteIndex p xr yr ∧ b = xr % 8
  · obtain ⟨xr, yr, hP, rfl, rfl⟩ := hbit
    rw [h.getLsbD_of_mem hm hP, h'.getLsbD_of_mem hm hP]
  · have hout : ∀ xr yr, P xr yr → ¬ (j = byteIndex p xr yr ∧ b = xr % 8) :=
      fun xr yr hP hb => hbit ⟨xr, yr, hP, hb⟩
    rw [h.getLsbD_of_notMem hm hout, h'.getLsbD_of_notMem hm hout]

/-- The set painted may be described in any equivalent way. -/
theorem Paints.congr (h : Paints p code es P) (hPQ : ∀ xr yr, Q xr yr ↔ P xr yr) : Paints p code es Q := by
  obtain rfl : Q = P := funext fun xr => funext fun yr => propext (hPQ xr yr)
  exact h

/-- No writes paint no pixels. -/
theorem Paints.nil (hP : ∀ xr yr, ¬ P xr yr) : Paints p code [] P where
  canvas xr yr h := absurd h (hP xr yr)
  covers xr yr h := absurd h (hP xr yr)
  only _ he := absurd he List.not_mem_nil

/-- Writes one after the other paint the pixels of both. -/
theorem Paints.append (h : Paints p code es P) (h' : Paints p code fs Q) :
    Paints p code (es ++ fs) fun xr yr => P xr yr ∨ Q xr yr where
  canvas xr yr := Or.rec (h.canvas xr yr) (h'.canvas xr yr)
  covers xr yr := by
    rintro (hP | hQ)
    · obtain ⟨e, he, hcov⟩ := h.covers xr yr hP
      exact ⟨e, List.mem_append_left _ he, hcov⟩
    · obtain ⟨e, he, hcov⟩ := h'.covers xr yr hQ
      exact ⟨e, List.mem_append_right _ he, hcov⟩
  only e he j b hcov := by
    obtain he | he := List.mem_append.mp he
    · obtain ⟨xr, yr, hP, hrest⟩ := h.only e he j b hcov
      exact ⟨xr, yr, .inl hP, hrest⟩
    · obtain ⟨xr, yr, hQ, hrest⟩ := h'.only e he j b hcov
      exact ⟨xr, yr, .inr hQ, hrest⟩

/-- Writes made for each member of a list paint the pixels of every member. -/
theorem Paints.flatMap {α : Type} {l : List α} {f : α → List Edit} {R : α → Nat → Nat → Prop}
    (h : ∀ a ∈ l, Paints p code (f a) (R a)) : Paints p code (l.flatMap f) fun xr yr => ∃ a ∈ l, R a xr yr where
  canvas xr yr := fun ⟨a, ha, hR⟩ => (h a ha).canvas xr yr hR
  covers xr yr := by
    rintro ⟨a, ha, hR⟩
    obtain ⟨e, he, hcov⟩ := (h a ha).covers xr yr hR
    exact ⟨e, List.mem_flatMap.mpr ⟨a, ha, he⟩, hcov⟩
  only e he j b hcov := by
    obtain ⟨a, ha, he⟩ := List.mem_flatMap.mp he
    obtain ⟨xr, yr, hR, hrest⟩ := (h a ha).only e he j b hcov
    exact ⟨xr, yr, ⟨a, ha, hR⟩, hrest⟩

/-- One write made for each member of a list. -/
theorem Paints.map {α : Type} {l : List α} {f : α → Edit} {R : α → Nat → Nat → Prop}
    (h : ∀ a ∈ l, Paints p code [f a] (R a)) : Paints p code (l.map f) fun xr yr => ∃ a ∈ l, R a xr yr := by
  rw [List.map_eq_flatMap]
  exact Paints.flatMap h

/-! What the raw writers paint (R127, R132). -/

/-- A masked fill byte at byte column `k` of raw line `y` paints the pixels under its mask (R108). -/
theorem paints_columnEdit {y k : Nat} {mask : Byte} (hy : y < p.rawH)
    (hmask : ∀ b < 8, mask.getLsbD b = true → 8 * k + b < p.rawW) :
    Paints p code [⟨y * rowBytes p + k, mask, fillByte code y k⟩] fun xr yr =>
      yr = y ∧ xr / 8 = k ∧ mask.getLsbD (xr % 8) = true where
  canvas := by
    rintro xr yr ⟨rfl, rfl, hb⟩
    have := hmask _ (Nat.mod_lt xr (by decide)) hb
    omega
  covers := by
    rintro xr yr ⟨rfl, rfl, hb⟩
    exact ⟨_, List.mem_cons_self, Nat.add_comm _ _, hb⟩
  only := by
    intro e he j b hcov
    obtain rfl := List.mem_singleton.mp he
    obtain ⟨rfl, hb⟩ := hcov
    have hb8 : b < 8 := BitVec.lt_of_getLsbD hb
    have hcol : (8 * k + b) / 8 = k := by omega
    have hbit : (8 * k + b) % 8 = b := by omega
    refine ⟨8 * k + b, y, ⟨rfl, hcol, hbit.symm ▸ hb⟩, ⟨?_, hbit.symm⟩, fillByte_getLsbD _ _ _ _ hb8⟩
    rw [byteIndex, hcol, Nat.add_comm]

/-- Whole bytes and a tail paint the run from a byte boundary on (R127, segments 2 and 3). -/
theorem paints_alignedRunEdits {y k n : Nat} (hy : y < p.rawH) (hn : 0 < n → 8 * k + n ≤ p.rawW) :
    Paints p code (alignedRunEdits p code y k n) fun xr yr => yr = y ∧ 8 * k ≤ xr ∧ xr < 8 * k + n := by
  have hwhole (j : Nat) (hj : j ∈ List.range (n / 8)) :
      Paints p code [plainWrite (y * rowBytes p + (k + j)) (fillByte code y (k + j))] fun xr yr =>
        yr = y ∧ xr / 8 = k + j := by
    have hfull : ∀ b < 8, (0xFF#8).getLsbD b = true := by decide
    have hj := List.mem_range.mp hj
    refine (paints_columnEdit hy fun b _ _ => by omega).congr fun xr yr => ?_
    simp [hfull _ (Nat.mod_lt xr (by decide))]
  have htail : Paints p code (if 0 < n % 8 then
      [⟨y * rowBytes p + (k + n / 8), tailMask (n % 8), fillByte code y (k + n / 8)⟩] else []) fun xr yr =>
        yr = y ∧ xr / 8 = k + n / 8 ∧ xr % 8 < n % 8 := by
    have hbit (b : Nat) (hb : b < 8) : (tailMask (n % 8)).getLsbD b = true ↔ b < n % 8 := by
      rw [tailMask_getLsbD (by omega) b hb, decide_eq_true_eq]
    split
    case isTrue =>
      refine (paints_columnEdit hy fun b hb hmask => ?_).congr fun xr yr => ?_
      · rw [hbit b hb] at hmask
        omega
      · rw [hbit _ (Nat.mod_lt xr (by decide))]
    case isFalse => exact Paints.nil fun xr yr => by omega
  refine ((Paints.map hwhole).append htail).congr fun xr yr => ⟨fun ⟨hyr, hlo, hhi⟩ => ?_, ?_⟩
  · by_cases hlast : xr / 8 < k + n / 8
    · exact .inl ⟨xr / 8 - k, List.mem_range.mpr (by omega), hyr, by omega⟩
    · exact .inr ⟨hyr, by omega, by omega⟩
  · rintro (⟨j, hj, hyr, hcol⟩ | ⟨hyr, hcol, hbit⟩)
    · have := List.mem_range.mp hj
      exact ⟨hyr, by omega, by omega⟩
    · exact ⟨hyr, by omega, by omega⟩

/-- The byte-level writer paints the run of `w` pixels from `x` on (R127, R130). -/
theorem paints_rawHlineEdits {x y w : Nat} (hy : y < p.rawH) (hx : x + w ≤ p.rawW) :
    Paints p code (rawHlineEdits p code x y w) fun xr yr => yr = y ∧ x ≤ xr ∧ xr < x + w := by
  unfold rawHlineEdits
  split
  case isTrue =>
    exact (paints_alignedRunEdits hy (by omega)).congr fun xr yr => by omega
  case isFalse =>
    have hbit (b : Nat) (hb : b < 8) :
        (spanMask (x % 8) (min 7 (x % 8 + w - 1))).getLsbD b = true ↔ x % 8 ≤ b ∧ b < x % 8 + w := by
      rw [spanMask_getLsbD (by omega) (by omega) b hb, decide_eq_true_eq]
      omega
    have hlead := paints_columnEdit (code := code) (k := x / 8) hy fun b hb hmask => by
      rw [hbit b hb] at hmask
      omega
    refine (hlead.append (paints_alignedRunEdits hy (by omega))).congr fun xr yr => ?_
    rw [hbit _ (Nat.mod_lt xr (by decide))]
    omega

/-- A single-bit write of a pixel's colour bit paints that pixel (R34). -/
theorem paints_bitEdit {x y : Nat} (hx : x < p.rawW) (hy : y < p.rawH) :
    Paints p code [bitEdit p x y (colourBit code x y)] fun xr yr => xr = x ∧ yr = y where
  canvas := by
    rintro xr yr ⟨rfl, rfl⟩
    exact ⟨hx, hy⟩
  covers := by
    rintro xr yr ⟨rfl, rfl⟩
    exact ⟨_, List.mem_cons_self, rfl, by simp [bitEdit]⟩
  only := by
    intro e he j b hcov
    obtain rfl := List.mem_singleton.mp he
    obtain ⟨rfl, hb⟩ := hcov
    have hval : ∀ v : Bool, ∀ b < 8, (if v then 0xFF#8 else 0x00#8 : Byte).getLsbD b = v := by decide
    exact ⟨x, y, ⟨rfl, rfl⟩, ⟨rfl, by simpa [bitEdit] using hb⟩, hval _ b (BitVec.lt_of_getLsbD hb)⟩

/-- The column writer paints the run of `h` pixels from `y` on (R132). -/
theorem paints_rawVlineEdits {x y h : Nat} (hx : x < p.rawW) (hy : y + h ≤ p.rawH) :
    Paints p code (rawVlineEdits p code x y h) fun xr yr => xr = x ∧ y ≤ yr ∧ yr < y + h := by
  have hone (j : Nat) (hj : j ∈ List.range h) :=
    paints_bitEdit (code := code) (y := y + j) hx (by have := List.mem_range.mp hj; omega)
  refine (Paints.map hone).congr fun xr yr => ⟨fun ⟨hxr, hlo, hhi⟩ => ?_, ?_⟩
  · exact ⟨yr - y, List.mem_range.mpr (by omega), hxr, by omega⟩
  · rintro ⟨j, hj, hxr, rfl⟩
    have := List.mem_range.mp hj
    exact ⟨hxr, by omega, by omega⟩

end

/-- Settles O32: the run is what the byte-level writer paints (`paints_rawHlineEdits`), and bit `b` of column `k` is
that of the pixel at raw x `8k + b`. -/
theorem rowWriterBits : Obligations.RowWriterBits := by
  intro m p code x y w hm hy hw hx j b hb
  have hpaints := paints_rawHlineEdits (code := code) (x := x) (w := w) hy (by omega)
  split
  case isTrue hin =>
    obtain ⟨hlo, _, hfirst, hlast⟩ := hin
    have hj : byteIndex p (8 * (j - y * rowBytes p) + b) y = j := by
      unfold byteIndex
      omega
    have hbit : (8 * (j - y * rowBytes p) + b) % 8 = b := by omega
    have hpixel := hpaints.getLsbD_of_mem hm ⟨rfl, hfirst, by omega⟩
    rwa [hj, hbit] at hpixel
  case isFalse hout =>
    refine hpaints.getLsbD_of_notMem hm ?_
    rintro xr yr ⟨rfl, hfirst, hlast⟩ ⟨rfl, rfl⟩
    have hcol : xr / 8 < rowBytes p := column_of_x (by omega)
    unfold byteIndex at hout
    omega

/-- Settles O33: the run is what the column writer paints (`paints_rawVlineEdits`). -/
theorem columnWriterBits : Obligations.ColumnWriterBits := by
  intro m p code x y h hm hx hh hy j b _
  have hpaints := paints_rawVlineEdits (code := code) (y := y) (h := h) hx (by omega)
  constructor
  · rintro yy hlo hhi rfl rfl
    exact hpaints.getLsbD_of_mem hm ⟨rfl, hlo, by omega⟩
  · intro hout
    refine hpaints.getLsbD_of_notMem hm ?_
    rintro xr yr ⟨rfl, hlo, hhi⟩
    exact hout yr hlo (by omega)

/-! What the drawing commands paint (R133). -/

section
variable {p : Params} {r : Rotation} {code : Code} {x y w h : Int}

/-- SETPIX paints the image of its point, none out of bounds (R82). -/
theorem paints_setpixEdits : Paints p code (setpixEdits p r x y code) (imageOf p r x y) := by
  unfold setpixEdits
  split
  case isTrue hin =>
    obtain ⟨hx, hy, _⟩ := rotate_in_range hin
    refine (paints_bitEdit hx hy).congr fun xr yr => ⟨fun himage => ?_, ?_⟩
    · obtain ⟨hxr, hyr⟩ := imageOf_eq_raw himage
      exact ⟨hxr.symm, hyr.symm⟩
    · rintro ⟨rfl, rfl⟩
      exact imageOf_raw hin
  case isFalse hout => exact Paints.nil fun xr yr himage => hout himage.1

/-- The pixels of HLINE, read off the inverse rotation (R129). -/
theorem pixels_hline_iff {xr yr : Nat} :
    Instr.pixels p r (.hline x y w code) xr yr ↔
      (xr < p.rawW ∧ yr < p.rawH) ∧ onRun x w (unrotate p r xr yr).1 ∧ (unrotate p r xr yr).2 = y := by
  simp only [Instr.pixels, imageOf_iff_unrotate]
  constructor
  · rintro ⟨i, hrun, hcanvas, hinv⟩
    rw [hinv]
    exact ⟨hcanvas, hrun, rfl⟩
  · rintro ⟨hcanvas, hrun, rfl⟩
    exact ⟨_, hrun, hcanvas, rfl⟩

/-- The clipped run is the part of the run on the logical canvas (R124). -/
theorem mem_clip_iff {i : Int} :
    (clip p r (normalise x w).1 (normalise x w).2).1 ≤ i ∧
        i < (clip p r (normalise x w).1 (normalise x w).2).1 + (clip p r (normalise x w).1 (normalise x w).2).2 ↔
      onRun x w i ∧ 0 ≤ i ∧ i < width p r := by
  simp only [clip, clipLow, clipHigh, onRun]
  omega

/-- Each row of the dispatch table paints the image of its clipped run (R125). -/
theorem paints_dispatchEdits (hx : 0 ≤ x) (hw : 0 ≤ w) (hlast : x + w ≤ width p r) (hy : 0 ≤ y)
    (hy' : y < height p r) :
    Paints p code (dispatchEdits p r code x y w) fun xr yr => (xr < p.rawW ∧ yr < p.rawH) ∧
      (x ≤ (unrotate p r xr yr).1 ∧ (unrotate p r xr yr).1 < x + w) ∧ (unrotate p r xr yr).2 = y := by
  cases r with
  | rot0 | rot2 =>
    simp only [width, height] at hlast hy'
    refine (paints_rawHlineEdits (by omega) (by omega)).congr fun xr yr => ?_
    simp only [unrotate]
    omega
  | rot1 | rot3 =>
    simp only [width, height] at hlast hy'
    refine (paints_rawVlineEdits (by omega) (by omega)).congr fun xr yr => ?_
    simp only [unrotate]
    omega

/-- A rejected run has no point in bounds (R124). -/
theorem not_inBounds_of_rejected {i : Int} (hrej : rejected p r (normalise x w).1 y (normalise x w).2 = true)
    (hrun : onRun x w i) : ¬ inBounds p r i y = true := by
  simp only [rejected, Bool.or_eq_true, decide_eq_true_eq] at hrej
  simp only [inBounds, Bool.and_eq_true, decide_eq_true_eq]
  unfold onRun at hrun
  omega

/-- HLINE paints the pixels of its run: normalised, rejected or clipped, and dispatched (R122). -/
theorem paints_hlineEdits :
    Paints p code (hlineEdits p r x y w code) (Instr.pixels p r (.hline x y w code)) := by
  simp only [hlineEdits]
  split
  case isTrue hrej =>
    exact Paints.nil fun xr yr ⟨i, hrun, himage⟩ => not_inBounds_of_rejected hrej hrun himage.1
  case isFalse hrej =>
    obtain ⟨hlow, hlen, hhigh, hy, hy'⟩ := clip_in_range (Bool.eq_false_of_not_eq_true hrej)
    refine (paints_dispatchEdits hlow (by omega) hhigh hy hy').congr fun xr yr => ?_
    rw [pixels_hline_iff, mem_clip_iff]
    refine and_congr_right fun ⟨hxr, hyr⟩ => and_congr_left fun _ => (and_iff_left ?_).symm
    obtain ⟨hin, _⟩ := (rotateIsBijection p r).2 xr yr (by omega) (by omega) (by omega) (by omega)
    simp only [inBounds, Bool.and_eq_true, decide_eq_true_eq] at hin
    obtain ⟨⟨⟨hlo, hhi⟩, _⟩, _⟩ := hin
    exact ⟨hlo, hhi⟩

/-- A run off the canvas's rows writes nothing (R124). -/
theorem hlineEdits_of_row_outside (hy : y < 0 ∨ height p r ≤ y) : hlineEdits p r x y w code = [] := by
  refine if_pos ?_
  simp only [rejected, Bool.or_eq_true, decide_eq_true_eq]
  omega

/-- A negative width normalises as the equivalent positive one (R123, S4). -/
theorem normalise_of_neg (hw : w < 0) : normalise x w = normalise (x + w + 1) (-w) := by
  rw [normalise, if_pos hw, normalise, if_neg (by omega)]
  congr 1
  omega

/-- RAWHLINE paints its run clipped to the raw canvas (R126). -/
theorem paints_rawhlineClipped : Paints p code (rawhlineClipped p x y w code) fun xr yr =>
    (yr : Int) = y ∧ x ≤ xr ∧ (xr : Int) ≤ x + w - 1 ∧ xr < p.rawW ∧ yr < p.rawH := by
  simp only [rawhlineClipped]
  split
  case isTrue => exact Paints.nil fun xr yr => by omega
  case isFalse =>
    split
    case isTrue hempty =>
      simp only [clipLow, clipHigh] at hempty
      exact Paints.nil fun xr yr => by omega
    case isFalse hempty =>
      simp only [clipLow, clipHigh] at hempty ⊢
      exact (paints_rawHlineEdits (by omega) (by omega)).congr fun xr yr => by omega

/-- RAWVLINE paints its run clipped to the raw canvas (R131). -/
theorem paints_rawvlineClipped : Paints p code (rawvlineClipped p x y h code) fun xr yr =>
    (xr : Int) = x ∧ y ≤ yr ∧ (yr : Int) ≤ y + h - 1 ∧ xr < p.rawW ∧ yr < p.rawH := by
  simp only [rawvlineClipped]
  split
  case isTrue => exact Paints.nil fun xr yr => by omega
  case isFalse =>
    split
    case isTrue hempty =>
      simp only [clipLow, clipHigh] at hempty
      exact Paints.nil fun xr yr => by omega
    case isFalse hempty =>
      simp only [clipLow, clipHigh] at hempty ⊢
      exact (paints_rawVlineEdits (by omega) (by omega)).congr fun xr yr => by omega

end

/-! The rows of FILLRECT (R121). -/

/-- The naturals of a list, read as integers. -/
theorem coe_list_eq_map (l : List Nat) : (l : List Int) = l.map fun n : Nat => (n : Int) :=
  List.map_eq_flatMap.symm

/-- A range read as integers has the integers from 0 up to its length. -/
theorem mem_coe_range {n : Nat} {i : Int} : i ∈ (List.range n : List Int) ↔ 0 ≤ i ∧ i < n := by
  rw [coe_list_eq_map, List.mem_map]
  constructor
  · rintro ⟨k, hk, rfl⟩
    have := List.mem_range.mp hk
    omega
  · rintro ⟨hlo, hhi⟩
    exact ⟨i.toNat, List.mem_range.mpr (by omega), Int.toNat_of_nonneg hlo⟩

/-- Of `n` lists in a row, those outside `k` successive ones may be skipped when they are empty. -/
theorem flatMap_range_of_nil_outside {α : Type} {f : Nat → List α} {a k n : Nat} (hn : a + k ≤ n)
    (hnil : ∀ j < n, j < a ∨ a + k ≤ j → f j = []) :
    (List.range n).flatMap f = (List.range k).flatMap fun j => f (a + j) := by
  obtain ⟨c, rfl⟩ := Nat.exists_eq_add_of_le hn
  have hbefore : (List.range a).flatMap f = [] :=
    List.flatMap_eq_nil_iff.mpr fun j hj => by
      have := List.mem_range.mp hj
      exact hnil j (by omega) (by omega)
  have hafter : (List.range c).flatMap (fun j => f (a + k + j)) = [] :=
    List.flatMap_eq_nil_iff.mpr fun j hj => by
      have := List.mem_range.mp hj
      exact hnil _ (by omega) (by omega)
  simp [List.range_add, List.flatMap_append, List.flatMap_map, hbefore, hafter]

/-- Settles O39: the rows visited are successive, and every other one is off the canvas. -/
theorem fillrectIsSuccessiveHlines : Obligations.FillrectIsSuccessiveHlines := by
  intro p r x y w h code
  simp only [fillrectEdits, rectRows, coe_list_eq_map, List.flatMap_map]
  by_cases hrows : clipHigh (height p r) y h - clipLow y + 1 ≤ 0
  · have hnil (j : Nat) (hj : j ∈ List.range h.toNat) : hlineEdits p r x (y + j) w code = [] := by
      have hj := List.mem_range.mp hj
      simp only [clipHigh, clipLow] at hrows
      exact hlineEdits_of_row_outside (by omega)
    rw [Int.toNat_of_nonpos hrows, List.flatMap_eq_nil_iff.mpr hnil]
    rfl
  · refine Eq.symm ((flatMap_range_of_nil_outside (a := (clipLow y - y).toNat)
      (k := (clipHigh (height p r) y h - clipLow y + 1).toNat) ?_ fun j hlt hj => ?_).trans ?_)
    · simp only [clipHigh, clipLow] at hrows ⊢
      omega
    · simp only [clipHigh, clipLow] at hrows hj
      exact hlineEdits_of_row_outside (by omega)
    · have hfirst : y + ((clipLow y - y).toNat : Int) = clipLow y := by
        unfold clipLow
        omega
      simp only [Nat.cast_add, ← add_assoc, hfirst]

/-- FILLRECT paints the pixels of its rectangle, the union over its rows (R121). -/
theorem paints_fillrectEdits {p : Params} {r : Rotation} {x y w h : Int} {code : Code} :
    Paints p code (fillrectEdits p r x y w h code) (Instr.pixels p r (.fillrect x y w h code)) := by
  rw [fillrectIsSuccessiveHlines]
  refine (Paints.flatMap fun j _ => paints_hlineEdits (y := y + j)).congr fun xr yr => ?_
  simp only [Instr.pixels]
  constructor
  · rintro ⟨i, j, hrun, hlo, hhi, himage⟩
    refine ⟨j - y, mem_coe_range.mpr (by omega), i, hrun, ?_⟩
    rwa [show y + (j - y) = j by omega]
  · rintro ⟨j, hj, i, hrun, himage⟩
    have := mem_coe_range.mp hj
    exact ⟨i, y + j, hrun, by omega, by omega, himage⟩

/-- On an idle SMDC, a drawing command whose writes paint `P` draws exactly `P` (R133). -/
theorem Paints.drawnExactly {i : Instr} {s : State} {code : Code} {P : Nat → Nat → Prop} (hi : i.draws = true)
    (hidle : s.busy = false) (hm : s.storage.wf = true)
    (h : Paints s.params code (i.drawEdits s.params s.rot) P) :
    ∃ t, exec i s = .next t ∧ DrawnExactly s t code P := by
  refine ⟨_, exec_draws_of_idle hi hidle, rfl, fun xr yr hP => ?_, fun j b _ hout => h.getLsbD_of_notMem hm hout⟩
  obtain ⟨hx, hy⟩ := h.canvas xr yr hP
  exact ⟨hx, hy, (State.pixel_eq_getLsbD _ xr yr).trans (h.getLsbD_of_mem hm hP)⟩

/-- Settles O34: the pixels of its run are what HLINE paints. -/
theorem hlineDrawsRun : Obligations.HlineDrawsRun :=
  fun _ _ _ _ _ hidle hm => paints_hlineEdits.drawnExactly rfl hidle hm

/-- Settles O35: the union over its rows is what FILLRECT paints. -/
theorem fillrectDrawsRectangle : Obligations.FillrectDrawsRectangle :=
  fun _ _ _ _ _ _ hidle hm => paints_fillrectEdits.drawnExactly rfl hidle hm

/-- Settles O36: the clipped row run is what RAWHLINE paints. -/
theorem rawhlineDrawsRun : Obligations.RawhlineDrawsRun :=
  fun _ _ _ _ _ hidle hm => Paints.drawnExactly (i := .rawhline _ _ _ _) rfl hidle hm paints_rawhlineClipped

/-- Settles O37: the clipped column run is what RAWVLINE paints. -/
theorem rawvlineDrawsRun : Obligations.RawvlineDrawsRun :=
  fun _ _ _ _ _ hidle hm => Paints.drawnExactly (i := .rawvline _ _ _ _) rfl hidle hm paints_rawvlineClipped

/-- Settles O38: SETPIX of every point of the run, in any order, paints the pixels HLINE paints. -/
theorem hlineEqualsSetpixes : Obligations.HlineEqualsSetpixes := by
  intro m p r x y w code order hm hperm
  have hmem (i : Int) : i ∈ order ↔ onRun x w i := by
    rw [hperm.mem_iff, List.mem_map, onRun]
    constructor
    · rintro ⟨j, hj, rfl⟩
      have := mem_coe_range.mp hj
      omega
    · rintro ⟨hlo, hhi⟩
      exact ⟨i - (normalise x w).1, mem_coe_range.mpr (by omega), by omega⟩
  refine paints_hlineEdits.edits_eq ((Paints.flatMap fun i _ => paints_setpixEdits).congr fun xr yr => ?_) hm
  simp only [hmem, Instr.pixels]

/-- Settles O40: both calls normalise to the same run (`normalise_of_neg`). -/
theorem hlineNegativeWidth : Obligations.HlineNegativeWidth := by
  intro s x y w code hw
  rw [exec_draws rfl, exec_draws rfl]
  simp only [Instr.drawEdits, hlineEdits, normalise_of_neg hw]

end Sys2Proof.Machine
end

section
/-! PROOFS. The ProtocolEncoder (43_protocol.md): REFRESH and CLEARTX send frames of one form, which the Transport takes
whole or holds up, and the bias flag follows the frames. -/

namespace Sys2Proof.Machine

open Sys2Proof

/-! The one form of both frames (R152, R153, R158). -/

/-- The operations of a frame that toggles the bias flag between the bytes `sent` and the bytes `left`, all inside the
select and transaction brackets. -/
def frameOps (sent left : List Byte) : List TxOp :=
  [.emit .txBegin, .emit (.cs true)] ++ (emitBytes sent ++ .toggle :: emitBytes left) ++
    [.emit (.cs false), .emit .txEnd]

/-- REFRESH toggles after the control byte (R152). -/
theorem refreshOps_eq_frameOps (s : State) :
    refreshOps s = frameOps [vcomByte s.params s.vcom ||| s.params.writeCommand]
      ((List.range s.params.rawH).flatMap s.lineBytes ++ [0x00#8]) := by
  simp [refreshOps_eq, frameOps, emitBytes]

/-- CLEARTX toggles after both its bytes (R153). -/
theorem clearOps_eq_frameOps (s : State) : clearOps s = frameOps (clearBytes s) [] := rfl

/-- The events of operations made one after the other. -/
@[simp] theorem txEvents_append (ops ops' : List TxOp) : txEvents (ops ++ ops') = txEvents ops ++ txEvents ops' := by
  induction ops with
  | nil => rfl
  | cons op ops ih =>
    cases op with
    | toggle => exact ih
    | emit e => exact congrArg (e :: ·) ih

/-- Sending bytes is one event for each. -/
@[simp] theorem txEvents_emitBytes (bytes : List Byte) : txEvents (emitBytes bytes) = bytes.map .byte := by
  induction bytes with
  | nil => rfl
  | cons b bytes ih => exact congrArg (TxEvent.byte b :: ·) ih

/-- A frame's events are its bytes, bracketed. -/
theorem txEvents_frameOps (sent left : List Byte) : txEvents (frameOps sent left) = bracketed (sent ++ left) := by
  simp [frameOps, bracketed, txEvents]

@[simp] theorem bracketed_length (bytes : List Byte) : (bracketed bytes).length = 4 + bytes.length := by
  simp only [bracketed, List.length_append, List.length_map, List.length_cons, List.length_nil]
  omega

theorem txEvents_refreshOps (s : State) : txEvents (refreshOps s) = bracketed (refreshBytes s) := by
  rw [refreshOps_eq_frameOps, txEvents_frameOps, refreshBytes_eq, List.append_assoc]

/-- A refresh frame has `6 + RAW_H * (ROW_BYTES + 2)` events: its bytes (`refreshByteCount`) and its four edges. -/
theorem txEvents_refreshOps_length (s : State) :
    (txEvents (refreshOps s)).length = 6 + s.params.rawH * (rowBytes s.params + 2) := by
  have hbytes := refreshByteCount s
  rw [frameBytes_refreshOps] at hbytes
  rw [txEvents_refreshOps, bracketed_length, hbytes]
  omega

/-! What a frame's operations do to the state. -/

/-- Sending bytes adds their events and nothing else. -/
theorem applyOps_emitBytes (bytes : List Byte) (s : State) :
    applyOps (emitBytes bytes) s = { s with events := s.events ++ bytes.map .byte } := by
  induction bytes generalizing s with
  | nil => simp [emitBytes, applyOps]
  | cons b bytes ih =>
    refine (ih (s.emit (.byte b))).trans ?_
    simp [State.emit]

/-- A whole frame adds its events, toggles the bias flag once, and leaves the bus closed and the select line low. -/
theorem applyOps_frameOps (sent left : List Byte) (s : State) :
    applyOps (frameOps sent left) s =
      { s with
        vcom := !s.vcom
        selectHigh := false
        busOpen := false
        events := s.events ++ bracketed (sent ++ left) } := by
  simp [frameOps, applyOps_append, applyOps, applyOps_emitBytes, State.emit, State.toggleVcom, bracketed]

/-- Operations add their events, in order. -/
theorem applyOps_events (ops : List TxOp) (s : State) : (applyOps ops s).events = s.events ++ txEvents ops := by
  induction ops generalizing s with
  | nil => simp [applyOps, txEvents]
  | cons op ops ih => cases op <;> simp [applyOps, txEvents, ih]

/-- Operations answer nothing: the response comes after the frame. -/
theorem applyOps_responses (ops : List TxOp) (s : State) : (applyOps ops s).responses = s.responses := by
  induction ops generalizing s with
  | nil => rfl
  | cons op ops ih => cases op <;> simp [applyOps, ih]

/-- Operations that make the toggle at most once flip the bias flag if they make it. -/
theorem applyOps_vcom {ops : List TxOp} (s : State) (hcount : ops.count .toggle ≤ 1) :
    (applyOps ops s).vcom = if .toggle ∈ ops then !s.vcom else s.vcom := by
  induction ops generalizing s with
  | nil => rfl
  | cons op ops ih =>
    cases op with
    | toggle =>
      have hnone : .toggle ∉ ops := List.count_eq_zero.mp (by simpa using hcount)
      simp [applyOps, ih s.toggleVcom (by simp [List.count_eq_zero.mpr hnone]), hnone]
    | emit e => simpa [applyOps] using ih (s.emit e) (by simpa using hcount)

/-! A frame the Transport takes whole, and one it holds up (R157). -/

/-- A frame is taken whole or held up: what the Transport's readiness decides. -/
theorem Readiness.covers_or_upTo (r : Readiness) (k : Nat) : r.covers k = true ∨ ∃ n, r = .upTo n ∧ n < k := by
  cases r with
  | always => exact .inl rfl
  | upTo n => simpa [Readiness.covers] using Nat.lt_or_ge n k |>.symm

/-- A frame held up leaves its command busy. -/
theorem runTx_busy_of_upTo {ops : List TxOp} {s : State} {n : Nat} (hr : s.transport = .upTo n)
    (hn : n < (txEvents ops).length) : (runTx ops s).busy = true := by
  obtain ⟨_, _, _, _, _, hrun⟩ := runTx_stalled ops s n hr hn
  rw [hrun]
  rfl

/-- A frame whose command completed was taken whole. -/
theorem covers_of_runTx_idle {ops : List TxOp} {s : State} (h : (runTx ops s).busy = false) :
    s.transport.covers (txEvents ops).length = true := by
  obtain hcovers | ⟨n, hr, hn⟩ := s.transport.covers_or_upTo (txEvents ops).length
  · exact hcovers
  · rw [runTx_busy_of_upTo hr hn] at h
    cases h

/-- A frame taken whole, run from an idle SMDC (R150, R158). -/
theorem runTx_frameOps_covered {sent left : List Byte} {s : State} (hidle : s.busy = false)
    (h : s.transport.covers (bracketed (sent ++ left)).length = true) :
    runTx (frameOps sent left) s =
      { s with
        vcom := !s.vcom
        selectHigh := false
        busOpen := false
        events := s.events ++ bracketed (sent ++ left)
        transport := s.transport.spend (bracketed (sent ++ left)).length
        responses := s.responses ++ [.done] } := by
  rw [← txEvents_frameOps] at h
  rw [runTx_covered _ s h, applyOps_frameOps, txEvents_frameOps]
  simp [State.finish, State.withTransport, State.busy_eq_false.mp hidle]

/-- A frame held up at an event has made the toggle exactly if the events ahead of the toggle are all out. -/
theorem toggle_mem_iff_of_emit_next {ahead behind made rest : List TxOp} {e : TxEvent} (hahead : .toggle ∉ ahead)
    (h : ahead ++ .toggle :: behind = made ++ .emit e :: rest) :
    .toggle ∈ made ↔ (txEvents ahead).length ≤ (txEvents made).length := by
  rcases List.append_eq_append_iff.mp h with ⟨more, rfl, hmore⟩ | ⟨more, rfl, hmore⟩
  · have hmem : .toggle ∈ more := by
      cases more with
      | nil => simp at hmore
      | cons op more =>
        obtain ⟨rfl, _⟩ := List.cons.inj hmore
        exact List.mem_cons_self
    simp [hmem]
  · have hshort : (txEvents made).length < (txEvents (made ++ more)).length := by
      cases more with
      | nil => simp at hmore
      | cons op more =>
        obtain ⟨rfl, _⟩ := List.cons.inj hmore
        simp [txEvents]
    have hnone : .toggle ∉ made := fun hmem => hahead (List.mem_append_left _ hmem)
    exact iff_of_false hnone hshort.not_ge

/-- A frame makes its toggle once. -/
theorem count_toggle_frameOps (sent left : List Byte) : (frameOps sent left).count .toggle = 1 := by
  have hnone (bytes : List Byte) : (emitBytes bytes).count .toggle = 0 :=
    List.count_eq_zero.mpr (toggle_notMem_emitBytes bytes)
  simp [frameOps, hnone]

/-- A frame held up after `n` events: those are out, nothing is answered, and the bias flag is toggled if the bytes
ahead of the toggle, which follow two edges, are out (R157). -/
theorem runTx_frameOps_stalled {sent left : List Byte} {s : State} {n : Nat} (hr : s.transport = .upTo n)
    (hn : n < (bracketed (sent ++ left)).length) :
    (runTx (frameOps sent left) s).responses = s.responses ∧
      (runTx (frameOps sent left) s).events = s.events ++ (bracketed (sent ++ left)).take n ∧
      (runTx (frameOps sent left) s).vcom = (if 2 + sent.length ≤ n then !s.vcom else s.vcom) ∧
      (runTx (frameOps sent left) s).transport = .upTo 0 := by
  rw [← txEvents_frameOps] at hn ⊢
  obtain ⟨made, rest, e, hops, rfl, hrun⟩ := runTx_stalled (frameOps sent left) s n hr hn
  have hcount : made.count .toggle ≤ 1 := by
    have := count_toggle_frameOps sent left
    rw [hops, List.count_append] at this
    omega
  have hmem : .toggle ∈ made ↔ 2 + sent.length ≤ (txEvents made).length := by
    have hahead : TxOp.toggle ∉ [.emit .txBegin, .emit (.cs true)] ++ emitBytes sent := by simp
    have := toggle_mem_iff_of_emit_next hahead (by simpa [frameOps] using hops)
    simpa [txEvents, ← Nat.add_assoc, Nat.add_comm] using this
  have htake : (txEvents (frameOps sent left)).take (txEvents made).length = txEvents made := by
    rw [hops, txEvents_append, List.take_left]
  rw [hrun, htake]
  simp [applyOps_responses, applyOps_events, applyOps_vcom s hcount, hmem]

/-! The two commands. -/

/-- REFRESH on an idle SMDC runs its frame: every byte it reads exists. -/
theorem exec_refresh_of_idle {s : State} (hidle : s.busy = false) :
    exec .refresh s = .next (runTx (refreshOps s) s) := by
  refine (State.whenIdle_idle _ hidle).trans ?_
  rw [State.fetch_eq lineIndexes_in_range, withBytes_ok]

/-- CLEARTX on an idle SMDC whitens storage and runs its frame: every byte it writes exists. -/
theorem exec_cleartx_of_idle {s : State} (hidle : s.busy = false) :
    exec .cleartx s = .next (runTx (clearOps s.whitened) s.whitened) := by
  refine (State.whenIdle_idle _ hidle).trans ?_
  rw [State.store_eq whiteEdits_in_range]
  rfl

/-- REFRESH that answers a next state ran its frame. -/
theorem exec_refresh_eq_next {s t : State} (h : exec .refresh s = .next t) : t = runTx (refreshOps s) s := by
  rw [exec_refresh_of_idle (exec_eq_next h).1] at h
  exact (Host.Outcome.next.inj h).symm

/-- CLEARTX that answers a next state whitened storage and ran its frame. -/
theorem exec_cleartx_eq_next {s t : State} (h : exec .cleartx s = .next t) :
    t = runTx (clearOps s.whitened) s.whitened := by
  rw [exec_cleartx_of_idle (exec_eq_next h).1] at h
  exact (Host.Outcome.next.inj h).symm

/-- White storage reads 0xFF below `N`, and as before elsewhere (R153). -/
theorem State.whitened_byte {s : State} (i : Nat) (hm : s.storage.wf = true) :
    s.whitened.byte i = if i < storageSize s.params then 0xFF#8 else s.byte i := by
  rw [State.byte, State.whitened, whiteEdits_eq_payloadEdits, Memory.read_edits_payloadEdits 0 _ i hm]
  by_cases hi : i < storageSize s.params <;> simp [hi, State.byte]

/-- A run of operations does not write storage. -/
theorem runTx_byte (ops : List TxOp) (s : State) (i : Nat) : (runTx ops s).byte i = s.byte i := by
  obtain ⟨_, hstorage, _⟩ := runTx_keeps ops s
  rw [State.byte, hstorage, State.byte]

/-- Settles O43: the refresh frame, taken whole (`runTx_frameOps_covered`). -/
theorem refreshSendsFrame : Obligations.RefreshSendsFrame := by
  intro s hidle hcovers
  rw [← txEvents_refreshOps_length] at hcovers ⊢
  rw [exec_refresh_of_idle hidle]
  simp only [← txEvents_refreshOps, refreshOps_eq_frameOps, txEvents_frameOps] at hcovers ⊢
  rw [runTx_frameOps_covered hidle hcovers]

/-- Settles O45: the clear frame of the whitened state, taken whole (`runTx_frameOps_covered`). -/
theorem cleartxClearsAndSends : Obligations.CleartxClearsAndSends := by
  intro s hidle hm hcovers
  have hrun : runTx (frameOps (clearBytes s) []) s.whitened = _ := runTx_frameOps_covered hidle hcovers
  exact ⟨_, (exec_cleartx_of_idle hidle).trans (congrArg Host.Outcome.next hrun), rfl,
    fun i => State.whitened_byte i hm⟩

/-- Settles O46: the refresh frame, held up (`runTx_frameOps_stalled`). -/
theorem refreshStalls : Obligations.RefreshStalls := by
  intro s n hidle hr hn
  rw [← txEvents_refreshOps_length] at hn
  refine ⟨_, exec_refresh_of_idle hidle, runTx_busy_of_upTo hr hn, ?_⟩
  obtain ⟨_, hstorage, hrot, _⟩ := runTx_keeps (refreshOps s) s
  simp only [← txEvents_refreshOps, refreshOps_eq_frameOps, txEvents_frameOps] at hn hstorage hrot ⊢
  obtain ⟨hresponses, hevents, hvcom, htransport⟩ := runTx_frameOps_stalled hr hn
  exact ⟨hresponses, hstorage, hrot, hevents, hvcom, htransport⟩

/-- Settles O47: the clear frame of the whitened state, held up (`runTx_frameOps_stalled`). -/
theorem cleartxStalls : Obligations.CleartxStalls := by
  intro s n hidle hm hr hn
  obtain ⟨_, _, hrot, _⟩ := runTx_keeps (clearOps s.whitened) s.whitened
  obtain ⟨hresponses, hevents, hvcom, htransport⟩ :=
    runTx_frameOps_stalled (sent := clearBytes s) (left := []) (s := s.whitened) hr hn
  refine ⟨_, exec_cleartx_of_idle hidle, runTx_busy_of_upTo (s := s.whitened) hr hn, hresponses, fun i hi => ?_, hrot,
    hevents, hvcom, htransport⟩
  rw [runTx_byte, State.whitened_byte i hm, if_pos hi]

/-! A command waiting for its port (R157). -/

/-- A command in progress that finds its port as it left it stays as it is. -/
theorem State.wait_self {s : State} {q : Sequencer} (h : s.seq = q) : s.wait q = s := by
  subst h
  rfl

/-- A RESTORE offered nothing stores and takes nothing. -/
theorem State.loaded_of_dataIn_nil {s : State} (n : Nat) (h : s.dataIn = []) : s.loaded n = s := by
  have hedits : s.storage.edits (payloadEdits n (s.offered n)) = s.storage := by
    simp [State.offered, h, payloadEdits]
  have hdrop : s.dataIn.drop (storageSize s.params - n) = s.dataIn := by simp [h]
  rw [State.loaded, hedits, hdrop]

/-- A SNAPSHOT of which nothing is taken sends nothing. -/
theorem State.sent_zero {s : State} (n : Nat) (h : s.dataOutReady = .upTo 0) : s.sent n 0 = s := by
  rw [State.sent_of_upTo n h, ← h, List.range'_zero, List.map_nil, List.append_nil]

/-- A command whose port gives it nothing is busy, and going on leaves it as it is, on each of the three ports. -/
theorem resume_of_stalled {s : State} (h : s.stalled = true) : s.busy = true ∧ s.resume = .next s := by
  unfold State.stalled at h
  split at h
  case h_1 n hseq =>
    obtain ⟨hn, hin⟩ : n < storageSize s.params ∧ s.dataIn = [] := by simpa using h
    refine ⟨by simp [State.busy, hseq], ?_⟩
    have hload := State.loadFrom_of_short (s := s) (n := n) (by simp [hin, hn])
    rw [State.loaded_of_dataIn_nil n hin, hin, List.length_nil, Nat.add_zero, State.wait_self hseq] at hload
    simpa [State.resume, hseq] using hload
  case h_2 n hseq =>
    obtain ⟨hn, hready⟩ : n < storageSize s.params ∧ s.dataOutReady = .upTo 0 := by simpa using h
    refine ⟨by simp [State.busy, hseq], ?_⟩
    have hstream := State.streamFrom_of_upTo (s := s) (n := n) (Nat.sub_pos_of_lt hn) hready
    rw [State.sent_zero n hready, Nat.add_zero, State.wait_self hseq] at hstream
    simpa [State.resume, hseq] using hstream
  case h_3 e ops hseq =>
    have hr : s.transport = .upTo 0 := by simpa using h
    exact ⟨by simp [State.busy, hseq], by simp [State.resume, hseq, runTx, hr, State.wait_self hseq]⟩
  case h_4 => cases h

/-- Settles O48: the step is the command going on (`step_of_resume`), which its port leaves as it is. -/
theorem stalledStaysStuck : Obligations.StalledStaysStuck := by
  intro s hp hstalled hreset
  obtain ⟨hbusy, hresume⟩ := resume_of_stalled hstalled
  exact ⟨hbusy, step_of_resume hp hbusy hresume (.inr hreset)⟩

/-- A frame held up after `n` events goes on in the step that finds the Transport accepting events again, as if all had
been accepted at once (`runTx_resumes`). -/
theorem step_of_stalled_frame {ops : List TxOp} {s : State} {n : Nat} (r : Readiness) (hp : s.params.wf = true)
    (hr : s.transport = .upTo n) (hn : n < (txEvents ops).length)
    (hgo : (runTx ops (s.withTransport (r.after n))).busy = true → s.resetAsserted = false) :
    step ((runTx ops s).withTransport r) = .next (runTx ops (s.withTransport (r.after n))) := by
  obtain ⟨e, rest, hseq, hresumes⟩ := runTx_resumes ops s n r hr hn
  obtain ⟨hparams, _⟩ := runTx_keeps ops s
  obtain ⟨_, _, _, hinputs, _⟩ := runTx_keeps ops (s.withTransport (r.after n))
  have hresume : ((runTx ops s).withTransport r).resume = .next (runTx ops (s.withTransport (r.after n))) := by
    simp [State.resume, hseq, hresumes]
  refine step_of_resume (by simpa [hparams] using hp) (by simp [State.busy, hseq]) hresume ?_
  cases hbusy : (runTx ops (s.withTransport (r.after n))).busy with
  | false => exact .inl rfl
  | true =>
    right
    rw [State.resetAsserted, hinputs]
    exact hgo hbusy

/-! The bias flag and the frames (R154, R155). -/

/-- A frame whose command completed has toggled the bias flag once. -/
theorem runTx_frameOps_vcom {sent left : List Byte} {s : State} (hdone : (runTx (frameOps sent left) s).busy = false) :
    (runTx (frameOps sent left) s).vcom = !s.vcom := by
  rw [runTx_covered _ s (covers_of_runTx_idle hdone), applyOps_frameOps]
  rfl

/-- REFRESH and CLEARTX, when they complete, have toggled the bias flag once. -/
theorem exec_frame_vcom {i : Instr} {s t : State} (hi : i = .refresh ∨ i = .cleartx) (h : exec i s = .next t)
    (hdone : t.busy = false) : t.vcom = !s.vcom := by
  rcases hi with rfl | rfl
  · obtain rfl := exec_refresh_eq_next h
    rw [refreshOps_eq_frameOps] at hdone ⊢
    exact runTx_frameOps_vcom hdone
  · obtain rfl := exec_cleartx_eq_next h
    rw [clearOps_eq_frameOps] at hdone ⊢
    exact runTx_frameOps_vcom hdone

/-- Settles O49: the frame held up goes on (`step_of_stalled_frame`), and toggles as an unstalled one does. -/
theorem stalledRefreshResumes : Obligations.StalledRefreshResumes := by
  intro s t u n r hp hr hn hstalled hwhole hgo
  refine ⟨?_, exec_frame_vcom (s := s.withTransport (r.after n)) (.inl rfl) hwhole⟩
  obtain rfl := exec_refresh_eq_next hstalled
  obtain rfl := exec_refresh_eq_next hwhole
  exact step_of_stalled_frame r hp hr (by rwa [txEvents_refreshOps_length]) hgo

/-- Settles O59: as O49, the frame being that of the whitened state. -/
theorem stalledCleartxResumes : Obligations.StalledCleartxResumes := by
  intro s t u n r hp hr hn hstalled hwhole hgo
  refine ⟨?_, exec_frame_vcom (s := s.withTransport (r.after n)) (.inr rfl) hwhole⟩
  obtain rfl := exec_cleartx_eq_next hstalled
  obtain rfl := exec_cleartx_eq_next hwhole
  exact step_of_stalled_frame (s := s.whitened) r hp hr hn hgo

/-- A HIGH select line in what remains of a frame is inside its transaction. -/
theorem busOpen_of_framed {opened : Bool} {ops : List TxOp} (h : framed opened true ops = true) : opened = true := by
  cases opened with
  | true => rfl
  | false => simp [framed] at h

/-- Settles O50: both frames are of the one form `frameOps`; the invariant keeps the line low but in a frame. -/
theorem framesAreBracketed : Obligations.FramesAreBracketed := by
  constructor
  · intro s ops hops
    obtain ⟨sent, left, rfl⟩ : ∃ sent left, ops = frameOps sent left := by
      rcases hops with rfl | rfl
      · exact ⟨_, _, refreshOps_eq_frameOps s⟩
      · exact ⟨_, _, clearOps_eq_frameOps s⟩
    refine ⟨_, rfl, fun op hop => ?_, ?_⟩
    · simp only [emitBytes, List.mem_append, List.mem_cons, List.mem_map] at hop
      obtain ⟨b, _, rfl⟩ | rfl | ⟨b, _, rfl⟩ := hop
      · exact .inr ⟨b, rfl⟩
      · exact .inl rfl
      · exact .inr ⟨b, rfl⟩
    · simpa [frameOps] using count_toggle_frameOps sent left
  · intro s hinv hhigh
    obtain ⟨_, hseqOk⟩ := State.inv_iff.mp hinv
    cases hseq : s.seq with
    | idle => simp [((State.seqOk_idle hseq).mp hseqOk).2] at hhigh
    | restoring n => simp [((State.seqOk_restoring hseq).mp hseqOk).2.2] at hhigh
    | streaming n => simp [((State.seqOk_streaming hseq).mp hseqOk).2.2] at hhigh
    | transmitting ops => exact busOpen_of_framed (hhigh ▸ (State.seqOk_transmitting hseq).mp hseqOk)

/-- Settles O51, by what the word decodes to: none, so it is rejected, or a command, so the step executes it. -/
theorem vcomTogglesOncePerFrame : Obligations.VcomTogglesOncePerFrame := by
  intro s t w rest hp hidle hin h
  cases hdec : decode w with
  | error e =>
    rw [step, State.work_idle hp hidle, State.takeInput_illegal hin hdec] at h
    cases h
    exact ⟨by simp, fun _ _ => rfl⟩
  | ok i =>
    rw [stepRunsDecoded s w rest i hp hidle hin hdec] at h
    refine ⟨fun hframe hdone => ?_, fun hr hc => ?_⟩
    · exact exec_frame_vcom (s := { s with inputs := rest }) (by simpa using hframe) h hdone
    · exact (exec_sameTransportSide (by simpa using hr) (by simpa using hc) h).vcom

/-- Whether the command sends a frame (R155). -/
def sendsFrame (i : Instr) : Bool := i == .refresh || i == .cleartx

theorem sendsFrame_iff {i : Instr} : sendsFrame i = true ↔ i = .refresh ∨ i = .cleartx := by
  simp [sendsFrame]

/-- A frame run against a Transport that accepts every event completes, and the Transport goes on accepting. -/
theorem runTx_of_always (ops : List TxOp) {s : State} (hr : s.transport = .always) :
    (runTx ops s).busy = false ∧ (runTx ops s).transport = .always := by
  rw [runTx_covered ops s (by simp [hr, Readiness.covers]), hr]
  exact ⟨rfl, rfl⟩

/-- With a Transport that accepts every event, REFRESH and CLEARTX complete, and it goes on accepting. -/
theorem exec_frame_of_always {i : Instr} {s t : State} (hi : i = .refresh ∨ i = .cleartx)
    (hr : s.transport = .always) (h : exec i s = .next t) : t.busy = false ∧ t.transport = .always := by
  rcases hi with rfl | rfl
  · obtain rfl := exec_refresh_eq_next h
    exact runTx_of_always _ hr
  · obtain rfl := exec_cleartx_eq_next h
    exact runTx_of_always _ (s := s.whitened) hr

/-- With a Transport that accepts every event, a command toggles the bias flag if it sends a frame and only then
(R155), and the Transport goes on accepting. -/
theorem exec_vcom_of_always {i : Instr} {s t : State} (hr : s.transport = .always) (h : exec i s = .next t) :
    t.vcom = (s.vcom ^^ sendsFrame i) ∧ t.transport = .always := by
  cases hi : sendsFrame i with
  | true =>
    have hframe := sendsFrame_iff.mp hi
    obtain ⟨hdone, htransport⟩ := exec_frame_of_always hframe hr h
    exact ⟨by simp [exec_frame_vcom hframe h hdone], htransport⟩
  | false =>
    have hother : ¬ (i = .refresh ∨ i = .cleartx) := by simp [← sendsFrame_iff, hi]
    obtain ⟨hrefresh, hcleartx⟩ := not_or.mp hother
    obtain ⟨_, _, _, hvcom, htransport⟩ := exec_sameTransportSide hrefresh hcleartx h
    exact ⟨by simp [hvcom], htransport.trans hr⟩

/-- One more changes the parity. -/
theorem decide_odd_succ (n : Nat) : decide ((n + 1) % 2 = 1) = !decide (n % 2 = 1) := by
  rw [← decide_not, decide_eq_decide]
  omega

/-- With a Transport that accepts every event, commands flip the bias flag if they send an odd number of frames. -/
theorem execAll_vcom_of_always {is : List Instr} {s t : State} (hr : s.transport = .always)
    (h : execAll is s = .next t) : t.vcom = (s.vcom ^^ decide ((is.filter sendsFrame).length % 2 = 1)) := by
  induction is generalizing s with
  | nil =>
    cases h
    simp
  | cons i is ih =>
    obtain ⟨u, hexec, hrest⟩ := andThen_eq_next.mp h
    obtain ⟨hvcom, hu⟩ := exec_vcom_of_always hr hexec
    rw [ih hu hrest, hvcom]
    cases hi : sendsFrame i with
    | false => simp [hi]
    | true => simp [hi, decide_odd_succ]

/-- Settles O52: the parity of the frames (`execAll_vcom_of_always`); at reset the Transport accepts every event. -/
theorem vcomAfterFrames : Obligations.VcomAfterFrames :=
  ⟨fun _ _ _ hr h => execAll_vcom_of_always hr h, fun p contents _ _ h =>
    execAll_vcom_of_always (s := State.resetWith p contents) rfl h⟩

end Sys2Proof.Machine
end

section
/-! PROOFS. Reset and hazards (70_reset_and_hazards.md): what an idle SMDC does with a reset or with nothing presented,
that a stalled one refuses a reset, and that drawing twice is drawing once. -/

namespace Sys2Proof.Machine

open Sys2Proof

/-! Drawing twice (R199). -/

/-- Writes that paint a set leave, made twice, what made once they leave: made twice they paint the same set. -/
theorem Paints.edits_edits {p : Params} {code : Code} {es : List Edit} {P : Nat → Nat → Prop} {m : Memory}
    (h : Paints p code es P) (hm : m.wf = true) : (m.edits es).edits es = m.edits es := by
  have htwice : Paints p code (es ++ es) P := (h.append h).congr fun _ _ => (or_self_iff).symm
  rw [← Memory.edits_append, htwice.edits_eq h hm]

/-- Every drawing command paints its pixels in some code. -/
theorem exists_paints_drawEdits {i : Instr} (p : Params) (r : Rotation) (hi : i.draws = true) :
    ∃ code, Paints p code (i.drawEdits p r) (i.pixels p r) := by
  cases i with
  | setpix => exact ⟨_, paints_setpixEdits⟩
  | fillrect => exact ⟨_, paints_fillrectEdits⟩
  | hline => exact ⟨_, paints_hlineEdits⟩
  | rawhline => exact ⟨_, paints_rawhlineClipped⟩
  | rawvline => exact ⟨_, paints_rawvlineClipped⟩
  | getpix | clear | snapshot | restore | setrot | refresh | cleartx => simp [Instr.draws] at hi

/-- Settles O42: the second drawing makes the same writes, since the first keeps the display and the rotation. -/
theorem redrawIsStable : Obligations.RedrawIsStable := by
  intro i s t u hi hm ht hu
  obtain ⟨code, hpaints⟩ := exists_paints_drawEdits s.params s.rot hi
  obtain rfl := exec_draws_eq_next hi ht
  obtain rfl := exec_draws_eq_next hi hu
  exact hpaints.edits_edits hm

/-! The step of an idle SMDC (R190, R204). -/

/-- Settles O8: the work of an idle SMDC with nothing presented is to stay as it is. -/
theorem stepIdleKeepsState : Obligations.StepIdleKeepsState := by
  intro s hp hidle hin
  rw [step, State.work_idle hp hidle, State.takeInput_nil hin]

/-- The reset input stores its contents as a reset at power-on does (`resetValues`): a byte given reads back. -/
theorem State.resetInput_byte {s : State} {contents : List Byte} {i : Nat} {b : Byte} (hi : i < storageSize s.params)
    (hb : contents[i]? = some b) : (s.resetInput contents).byte i = b := by
  obtain ⟨_, _, _, _, _, _, _, _, _, _, _, hbytes⟩ := resetValues s.params contents
  exact hbytes i b hi hb

/-- Settles O13: the work of an idle SMDC with a reset presented is the reset input, and it was idle already. -/
theorem resetFromIdle : Obligations.ResetFromIdle := by
  intro s contents rest hp hidle hin
  refine ⟨{ s with inputs := rest }.resetInput contents, ?_, ?_, fun i b => State.resetInput_byte⟩
  · rw [step, State.work_idle hp hidle, State.takeInput_reset hin]
  · simp [State.resetInput, State.busy_eq_false.mp hidle]

/-! Reset of a busy SMDC (R193). -/

/-- On legal parameters a busy step with a reset presented is refused, if what the command in progress answers leaves it
busy with the reset still presented. -/
theorem step_refused_of_resume {s t : State} (hp : s.params.wf = true) (hbusy : s.busy = true) (h : s.resume = .next t)
    (hwaits : t.busy = true) (hreset : t.resetAsserted = true) : step s = .refused .resetWhileBusy := by
  rw [step, State.work_busy hp hbusy]
  simp only [State.continueCommand, h, andThen_next, hwaits, hreset, Bool.and_self, if_true]

/-- Settles O14: a command whose port gives it nothing stays busy as it is (`resume_of_stalled`), the reset with it. -/
theorem resetWhileStalledRefused : Obligations.ResetWhileStalledRefused := by
  intro s contents rest hp hstalled hin
  obtain ⟨hbusy, hresume⟩ := resume_of_stalled hstalled
  exact step_refused_of_resume hp hbusy hresume hbusy (by simp [State.resetAsserted, hin])

end Sys2Proof.Machine
end

section
/-! PROOFS. Words written out from the encoding (R50 to R52): each is decided by `rsv`, then by the row of `op`. -/

namespace Sys2Proof

/-- Settles O5: five words are read by the row of their opcode, one has a reserved bit set, one has an opcode of no
row. -/
theorem sampleWordsDecode : Obligations.SampleWordsDecode :=
  ⟨decode_of_row .getpix (by decide) (by decide),
    decode_of_row .fillrect (by decide) (by decide),
    decode_of_row .hline (by decide) (by decide),
    decode_of_row .setrot (by decide) (by decide),
    decode_of_row .refresh (by decide) (by decide),
    decode_of_rsv (by decide),
    decode_of_no_row (by decide) (by decide)⟩

end Sys2Proof
end
